-- ==== Sys2Proof/Word.lean ====
section
/-! DEFINITION. The word, the byte and the register index of the LC-3 CORE (spec/00_scope.md R7 to R9). -/

namespace Sys2Proof

/-- A 16-bit word: a register, a memory cell, an instruction, an address (R9). `+` on it is modulo 2^16. -/
abbrev Word := BitVec 16

/-- An 8-bit character of the console port (R7: "character width"). -/
abbrev Byte := BitVec 8

/-- A general register's index `i` in 0..7; it names Ri (spec/10_state.md R20). -/
abbrev Reg := Fin 8

/-- The number of an address: a memory cell's key. -/
abbrev Word.addr (a : Word) : Nat := a.toNat

end Sys2Proof
end

