-- ==== Sys2Proof/Syntax.lean ====
section
/-! DEFINITION. The instructions of the CORE: one constructor per row of spec/opcode_table.json. A constructor's arguments
are the row's operands as spec/30_encoding.md R62 to R65 names them; bits that are ignored (R67) are no operands. -/

namespace Sys2Proof

/-- The 26 rows of the opcode table (spec/30_encoding.md R66). -/
inductive Instr where
  /-- BR, mask n:z:p and PCoffset9 (R115). -/
  | br (n z p : Bool) (off : BitVec 9)
  /-- ADD, register mode (R91). -/
  | addReg (dr sr1 sr2 : Reg)
  /-- ADD, immediate mode (R92). -/
  | addImm (dr sr1 : Reg) (imm : BitVec 5)
  /-- LD (R101). -/
  | ld (dr : Reg) (off : BitVec 9)
  /-- ST (R105). -/
  | st (sr : Reg) (off : BitVec 9)
  /-- JSR, PC-relative (R118). -/
  | jsr (off : BitVec 11)
  /-- JSRR, through a register (R119). -/
  | jsrr (base : Reg)
  /-- AND, register mode (R93). -/
  | andReg (dr sr1 sr2 : Reg)
  /-- AND, immediate mode (R94). -/
  | andImm (dr sr1 : Reg) (imm : BitVec 5)
  /-- LDR (R103). -/
  | ldr (dr base : Reg) (off : BitVec 6)
  /-- STR (R107). -/
  | str (sr base : Reg) (off : BitVec 6)
  /-- RESERVED_8: the original RTI slot, opcode 0x8 (R83). -/
  | reserved8
  /-- NOT (R95). -/
  | notR (dr sr : Reg)
  /-- LDI (R102). -/
  | ldi (dr : Reg) (off : BitVec 9)
  /-- STI (R106). -/
  | sti (sr : Reg) (off : BitVec 9)
  /-- JMP (R116); the words with BaseR = 7 are RET's. -/
  | jmp (base : Reg)
  /-- RESERVED_D: the fully unused code, opcode 0xD (R83). -/
  | reservedD
  /-- LEA (R104). -/
  | lea (dr : Reg) (off : BitVec 9)
  /-- TRAP 0x20 (R127). -/
  | trapGetc
  /-- TRAP 0x21 (R128). -/
  | trapOut
  /-- TRAP 0x22 (R129). -/
  | trapPuts
  /-- TRAP 0x23 (R130). -/
  | trapIn
  /-- TRAP 0x24 (R131). -/
  | trapPutsp
  /-- TRAP 0x25 (R132). -/
  | trapHalt
  /-- TRAP_UNKNOWN: every other vector (R133). -/
  | trapUnknown (vec : Byte)
  /-- RET: JMP with BaseR = 7 (R117). -/
  | ret
  deriving DecidableEq, Repr

end Sys2Proof
end

