-- ==== Sys2Proof/WellFormed.lean ====
section
/-! DEFINITION. Which terms of `Instr` are instructions of the table. Field ranges are carried by the operand types; two
checks are left, each for a row that another row refines (spec/30_encoding.md R66). -/

namespace Sys2Proof

/-- The six vectors that have a routine of their own (spec/00_scope.md R3, spec/44_trap.md R125). -/
def knownVectors : List Byte := [0x20#8, 0x21#8, 0x22#8, 0x23#8, 0x24#8, 0x25#8]

/-- JMP's words with BaseR = 7 are RET's (R117); TRAP_UNKNOWN excludes the six known vectors (R66, R69). -/
def Instr.wellFormed : Instr → Bool
  | .jmp base => base != 7
  | .trapUnknown vec => !(knownVectors.contains vec)
  | .br _ _ _ _ | .addReg _ _ _ | .addImm _ _ _ | .ld _ _ | .st _ _ | .jsr _ | .jsrr _ | .andReg _ _ _ | .andImm _ _ _
  | .ldr _ _ _ | .str _ _ _ | .reserved8 | .notR _ _ | .ldi _ _ | .sti _ _ | .reservedD | .lea _ _ | .trapGetc | .trapOut
  | .trapPuts | .trapIn | .trapPutsp | .trapHalt | .ret => true

/-- A term that is an instruction of the table. -/
abbrev Instr.WellFormed (i : Instr) : Prop := i.wellFormed = true

end Sys2Proof
end

