-- ==== Sys2Proof/Decode.lean ====
section
/-! DEFINITION. Decoding a 16-bit word (spec/30_encoding.md R60 to R69, spec/40_execution_loop.md R81), the encoder, and
the table's mask and match columns. Decoding is total with no refusal: every word matches exactly one row that is no
alias (R66), the reserved opcodes and unknown vectors being rows of their own. Opcode values and field positions that the
spec marks as general knowledge (decisions D1 to D3) are taken as the spec gives them (log 16). -/

namespace Sys2Proof

/-- The `len` bits of `w` from bit `lo` up: `w[lo+len-1 : lo]` (spec/00_scope.md R8). -/
def bitsAt (w : Word) (lo len : Nat) : BitVec len := w.extractLsb' lo len

/-- The register a 3-bit field names (R65). -/
def regAt (w : Word) (lo : Nat) : Reg := (bitsAt w lo 3).toFin

/-- ADD of either mode: `IR[5]` selects the form (R66, R91, R92). -/
def decodeAdd (w : Word) : Instr :=
  if w[5] then .addImm (regAt w 9) (regAt w 6) (bitsAt w 0 5) else .addReg (regAt w 9) (regAt w 6) (regAt w 0)

/-- AND of either mode: `IR[5]` selects the form (R66, R93, R94). -/
def decodeAnd (w : Word) : Instr :=
  if w[5] then .andImm (regAt w 9) (regAt w 6) (bitsAt w 0 5) else .andReg (regAt w 9) (regAt w 6) (regAt w 0)

/-- JSR or JSRR: `IR[11]` selects the form (R66, R118, R119). -/
def decodeJsr (w : Word) : Instr :=
  if w[11] then .jsr (bitsAt w 0 11) else .jsrr (regAt w 6)

/-- JMP, or RET where BaseR = 7 (R116, R117). -/
def decodeJmp (w : Word) : Instr :=
  if regAt w 6 = 7 then .ret else .jmp (regAt w 6)

/-- TRAP by its vector `IR[7:0]` (spec/44_trap.md R125); `IR[11:8]` is ignored. -/
def decodeTrap (vec : Byte) : Instr :=
  if vec = 0x20#8 then .trapGetc
  else if vec = 0x21#8 then .trapOut
  else if vec = 0x22#8 then .trapPuts
  else if vec = 0x23#8 then .trapIn
  else if vec = 0x24#8 then .trapPutsp
  else if vec = 0x25#8 then .trapHalt
  else .trapUnknown vec

/-- The dispatch table of R81, one line per opcode `IR[15:12]`, exhaustive with no default arm. -/
def decode (w : Word) : Instr :=
  match w[15], w[14], w[13], w[12] with
  | false, false, false, false => .br w[11] w[10] w[9] (bitsAt w 0 9)
  | false, false, false, true  => decodeAdd w
  | false, false, true,  false => .ld (regAt w 9) (bitsAt w 0 9)
  | false, false, true,  true  => .st (regAt w 9) (bitsAt w 0 9)
  | false, true,  false, false => decodeJsr w
  | false, true,  false, true  => decodeAnd w
  | false, true,  true,  false => .ldr (regAt w 9) (regAt w 6) (bitsAt w 0 6)
  | false, true,  true,  true  => .str (regAt w 9) (regAt w 6) (bitsAt w 0 6)
  | true,  false, false, false => .reserved8
  | true,  false, false, true  => .notR (regAt w 9) (regAt w 6)
  | true,  false, true,  false => .ldi (regAt w 9) (bitsAt w 0 9)
  | true,  false, true,  true  => .sti (regAt w 9) (bitsAt w 0 9)
  | true,  true,  false, false => decodeJmp w
  | true,  true,  false, true  => .reservedD
  | true,  true,  true,  false => .lea (regAt w 9) (bitsAt w 0 9)
  | true,  true,  true,  true  => decodeTrap (bitsAt w 0 8)

/-- The host's question: what the decoder reads from the table's bits `w`, `nbits` of them. The CORE's instruction is one
16-bit word (R60), so the bits are that word's. -/
def decodeTableWord (nbits w : Nat) : Option Instr :=
  some (decode (BitVec.ofNat 16 (w % 2 ^ nbits)))

/-- A register field's three bits. -/
def regBits (r : Reg) : BitVec 3 := BitVec.ofFin r

/-- The word of an instruction, from the bit strings of R62. Ignored bits are written as the assembler writes them (R71):
0, and 0b111111 in NOT; a reserved opcode's are 0 (log 14). -/
def encode : Instr → Word
  | .br n z p off        => 0b0000#4 ++ BitVec.ofBool n ++ BitVec.ofBool z ++ BitVec.ofBool p ++ off
  | .addReg dr sr1 sr2   => 0b0001#4 ++ regBits dr ++ regBits sr1 ++ 0b0#1 ++ 0b00#2 ++ regBits sr2
  | .addImm dr sr1 imm   => 0b0001#4 ++ regBits dr ++ regBits sr1 ++ 0b1#1 ++ imm
  | .ld dr off           => 0b0010#4 ++ regBits dr ++ off
  | .st sr off           => 0b0011#4 ++ regBits sr ++ off
  | .jsr off             => 0b0100#4 ++ 0b1#1 ++ off
  | .jsrr base           => 0b0100#4 ++ 0b0#1 ++ 0b00#2 ++ regBits base ++ 0b000000#6
  | .andReg dr sr1 sr2   => 0b0101#4 ++ regBits dr ++ regBits sr1 ++ 0b0#1 ++ 0b00#2 ++ regBits sr2
  | .andImm dr sr1 imm   => 0b0101#4 ++ regBits dr ++ regBits sr1 ++ 0b1#1 ++ imm
  | .ldr dr base off     => 0b0110#4 ++ regBits dr ++ regBits base ++ off
  | .str sr base off     => 0b0111#4 ++ regBits sr ++ regBits base ++ off
  | .reserved8           => 0b1000#4 ++ 0x000#12
  | .notR dr sr          => 0b1001#4 ++ regBits dr ++ regBits sr ++ 0b111111#6
  | .ldi dr off          => 0b1010#4 ++ regBits dr ++ off
  | .sti sr off          => 0b1011#4 ++ regBits sr ++ off
  | .jmp base            => 0b1100#4 ++ 0b000#3 ++ regBits base ++ 0b000000#6
  | .ret                 => 0b1100#4 ++ 0b000#3 ++ 0b111#3 ++ 0b000000#6
  | .reservedD           => 0b1101#4 ++ 0x000#12
  | .lea dr off          => 0b1110#4 ++ regBits dr ++ off
  | .trapGetc            => 0b1111#4 ++ 0b0000#4 ++ 0x20#8
  | .trapOut             => 0b1111#4 ++ 0b0000#4 ++ 0x21#8
  | .trapPuts            => 0b1111#4 ++ 0b0000#4 ++ 0x22#8
  | .trapIn              => 0b1111#4 ++ 0b0000#4 ++ 0x23#8
  | .trapPutsp           => 0b1111#4 ++ 0b0000#4 ++ 0x24#8
  | .trapHalt            => 0b1111#4 ++ 0b0000#4 ++ 0x25#8
  | .trapUnknown vec     => 0b1111#4 ++ 0b0000#4 ++ vec

/-- The `mask` column of spec/opcode_table.json: which bits are fixed in the row. RET's mask there, 0xFFC0, also fixes bits
11:9, against its own bit string `1100---111------` and R117 ("Any word `1100 xxx 111 xxxxxx` behaves the same"): the rule's
words are followed, 0xF1C0 (log 15). -/
def Instr.rowMask : Instr → Word
  | .br _ _ _ _ => 0xF000#16
  | .addReg _ _ _ => 0xF020#16
  | .addImm _ _ _ => 0xF020#16
  | .ld _ _ => 0xF000#16
  | .st _ _ => 0xF000#16
  | .jsr _ => 0xF800#16
  | .jsrr _ => 0xF800#16
  | .andReg _ _ _ => 0xF020#16
  | .andImm _ _ _ => 0xF020#16
  | .ldr _ _ _ => 0xF000#16
  | .str _ _ _ => 0xF000#16
  | .reserved8 => 0xF000#16
  | .notR _ _ => 0xF000#16
  | .ldi _ _ => 0xF000#16
  | .sti _ _ => 0xF000#16
  | .jmp _ => 0xF000#16
  | .reservedD => 0xF000#16
  | .lea _ _ => 0xF000#16
  | .trapGetc => 0xF0FF#16
  | .trapOut => 0xF0FF#16
  | .trapPuts => 0xF0FF#16
  | .trapIn => 0xF0FF#16
  | .trapPutsp => 0xF0FF#16
  | .trapHalt => 0xF0FF#16
  | .trapUnknown _ => 0xF000#16
  | .ret => 0xF1C0#16

/-- The `match` column of spec/opcode_table.json: the fixed bits' values. -/
def Instr.rowMatch : Instr → Word
  | .br _ _ _ _ => 0x0000#16
  | .addReg _ _ _ => 0x1000#16
  | .addImm _ _ _ => 0x1020#16
  | .ld _ _ => 0x2000#16
  | .st _ _ => 0x3000#16
  | .jsr _ => 0x4800#16
  | .jsrr _ => 0x4000#16
  | .andReg _ _ _ => 0x5000#16
  | .andImm _ _ _ => 0x5020#16
  | .ldr _ _ _ => 0x6000#16
  | .str _ _ _ => 0x7000#16
  | .reserved8 => 0x8000#16
  | .notR _ _ => 0x9000#16
  | .ldi _ _ => 0xA000#16
  | .sti _ _ => 0xB000#16
  | .jmp _ => 0xC000#16
  | .reservedD => 0xD000#16
  | .lea _ _ => 0xE000#16
  | .trapGetc => 0xF020#16
  | .trapOut => 0xF021#16
  | .trapPuts => 0xF022#16
  | .trapIn => 0xF023#16
  | .trapPutsp => 0xF024#16
  | .trapHalt => 0xF025#16
  | .trapUnknown _ => 0xF000#16
  | .ret => 0xC1C0#16

/-- The bits of an instruction's word that are not ignored: every bit that is no `-` in the bit strings of R62, with
BaseR's bits fixed in RET. -/
def Instr.usedBits : Instr → Word
  | .addReg _ _ _ | .andReg _ _ _ => 0xFFE7#16
  | .jsrr _ => 0xF9C0#16
  | .notR _ _ => 0xFFC0#16
  | .jmp _ | .ret => 0xF1C0#16
  | .reserved8 | .reservedD => 0xF000#16
  | .trapGetc | .trapOut | .trapPuts | .trapIn | .trapPutsp | .trapHalt | .trapUnknown _ => 0xF0FF#16
  | .br _ _ _ _ | .addImm _ _ _ | .ld _ _ | .st _ _ | .jsr _ | .andImm _ _ _ | .ldr _ _ _ | .str _ _ _ | .ldi _ _
  | .sti _ _ | .lea _ _ => 0xFFFF#16

end Sys2Proof
end

