-- ==== Sys2Proof/Config.lean ====
section
/-! DEFINITION. The implementation parameters of the CORE (spec/00_scope.md R7): their decided defaults, and the one the
spec leaves OPEN as a free value. `State.params` holds the launched machine's values; `State.reset` takes them from here. -/

namespace Sys2Proof.Config

/-- `KBSR_ADDR`'s default (R7, R44, decision D5; log 6). PRESUMED by the spec itself: general knowledge of the LC-3. -/
def kbsrAddr : Word := 0xFE00#16

/-- `KBDR_ADDR`'s default (R7, R44, decision D5; log 6). PRESUMED by the spec itself: general knowledge of the LC-3. -/
def kbdrAddr : Word := 0xFE02#16

/-- `JSRR_LINK_FIRST`'s default (R7, R119, decision D14; log 7). -/
def jsrrLinkFirst : Bool := true

/-- `IN_PROMPT`, the bytes IN writes before its read: OPEN (R7, R130, decision D18). A free value: no proof can see it (log 5). -/
opaque inPrompt : List Byte

/-- `RESET_GPR` (R7, R37, decision D9; log 2). -/
def resetGpr : Word := 0x0000#16

/-- `RESET_MEM`: what a cell the image does not cover holds (R7, R37, decision D11; log 3). -/
def resetMem : Word := 0x0000#16

/-- The conventional `ORIGIN` (R7, R161: "conventionally 0x3000"). DESIGN CHOICE for a machine with no image yet (log 1). -/
def conventionalOrigin : Word := 0x3000#16

end Sys2Proof.Config
end

