-- ==== Sys2Proof/Machine/State.lean ====
section
/-! DEFINITION. The state of the CORE as plain data (spec/10_state.md R20 to R37, spec/20_memory.md R40), the reasons a
step can stop, and the state after reset. -/

namespace Sys2Proof.Machine

/-- The condition register's value: exactly one of NEGATIVE, ZERO, POSITIVE (R22). -/
inductive Cond where
  | neg
  | zero
  | pos
  deriving DecidableEq, Repr

/-- The run status (R26). -/
inductive RunStatus where
  | running
  | halted
  | faulted
  deriving DecidableEq, Repr

/-- The two kinds of fault of the CORE (R140). -/
inductive FaultKind where
  | reservedOpcode
  | unknownTrapVector
  deriving DecidableEq, Repr

/-- The fault record (R27). -/
structure FaultRecord where
  kind   : FaultKind
  word   : Word
  opcode : BitVec 4
  vector : Option Byte
  pc     : Word
  deriving DecidableEq, Repr

/-- Where inside an instruction the CORE stands between two model steps: waiting for console input, and so what is left to
do when a byte comes (spec/40_execution_loop.md R85; log 10), or in a string scan that has gone all round memory and found
no terminator (spec/44_trap.md R129, spec/93_implementation_defined.md I13; log 11). -/
inductive Hold where
  /-- the fetch reads KBDR (spec/20_memory.md R47) -/
  | fetch
  /-- the read whose word LD, LDI or LDR writes to `dr` -/
  | load (dr : Reg)
  /-- LDI's pointer read -/
  | loadPointer (dr : Reg)
  /-- STI's pointer read -/
  | storePointer (sr : Reg)
  /-- GETC's read -/
  | getc
  /-- IN's read, after the prompt -/
  | inRead
  /-- PUTS reading the cell at `a` -/
  | puts (a : Word)
  /-- PUTSP reading the cell at `a` -/
  | putsp (a : Word)
  /-- no wait: PUTS after a whole round of memory, not finished, going on with the cell at `a` -/
  | putsRound (a : Word)
  /-- no wait: PUTSP after a whole round of memory, not finished, going on with the cell at `a`. Never there after a step:
  KBSR's word ends every scan of PUTSP (R45, R131) -/
  | putspRound (a : Word)
  deriving DecidableEq, Repr

/-- The console collaborator as the CORE meets it (spec/00_scope.md R13, spec/10_state.md R32 to R35; log 9). -/
structure Console where
  /-- the bytes already pending, oldest first -/
  pending  : List Byte
  /-- the host's future input: the head becomes pending at the next call to the console's input side -/
  arrivals : List (List Byte)
  /-- what the script goes on with, over and over, once `arrivals` is used up: a host whose input never ends -/
  recurring : List (List Byte)
  /-- the bytes written so far, oldest first -/
  out      : List Byte
  deriving DecidableEq, Repr

/-- The parameters a machine is launched with (spec/00_scope.md R7); no step changes them. -/
structure Params where
  kbsrAddr      : Word
  kbdrAddr      : Word
  inPrompt      : List Byte
  jsrrLinkFirst : Bool
  deriving DecidableEq, Repr

/-- Memory: the cells that do not hold `Config.resetMem`, as pairs of address and word (R40; log 8). -/
abbrev Memory := List (Nat × Word)

/-- The canonical form: addresses strictly rising and inside the space, no cell listed that holds what an unlisted cell
reads as. Equal memories are equal lists. -/
abbrev Memory.wf (m : Memory) : Prop :=
  m.Pairwise (fun c d => c.1 < d.1) ∧ ∀ c ∈ m, c.1 < 65536 ∧ c.2 ≠ Config.resetMem

/-- Everything the spec gives the machine (INVENTORY.md, State). -/
structure State where
  regs    : Vector Word 8
  pc      : Word
  cond    : Cond
  status  : RunStatus
  fault   : Option FaultRecord
  ir      : Word
  icount  : Nat
  mem     : Memory
  hold    : Option Hold
  console : Console
  params  : Params
  deriving DecidableEq, Repr

/-- Why the model's step stops. None of these is a fault of the CORE: those are next states with `fault` set (log 13). -/
inductive Fault where
  /-- Raised by `step` when `status` is HALTED: no step exists (R80). Safe: nothing is claimed of a step that is none. -/
  | halted
  /-- Raised by `step` when `status` is FAULTED: no step exists (R80). Safe, as `halted`. -/
  | faulted
  deriving DecidableEq, Repr

/-- Why an instruction has no meaning in the model. -/
inductive Refusal where
  /-- Raised by an arm of `exec` whose instruction has no meaning yet; no arm does. Safe. -/
  | notModelled (mnemonic : String)
  deriving DecidableEq, Repr

/-- The parameters' defaults (spec/00_scope.md R7), with IN_PROMPT free. -/
def Params.default : Params where
  kbsrAddr      := Config.kbsrAddr
  kbdrAddr      := Config.kbdrAddr
  inPrompt      := Config.inPrompt
  jsrrLinkFirst := Config.jsrrLinkFirst

/-- The state after reset (R37, spec/70_reset_and_hazards.md R160) of a machine that no image has been loaded into: every
field as R37 gives it, `pc` at the conventional origin (log 1), `ir` 0 (log 4), a console that has seen nothing. -/
def State.reset : State where
  regs    := Vector.replicate 8 Config.resetGpr
  pc      := Config.conventionalOrigin
  cond    := .zero
  status  := .running
  fault   := none
  ir      := 0x0000#16
  icount  := 0
  mem     := []
  hold    := none
  console := { pending := [], arrivals := [], recurring := [], out := [] }
  params  := Params.default

end Sys2Proof.Machine
end

