-- ==== Sys2Proof/Machine/Flags.lean ====
section
/-! DEFINITION. The condition register (spec/10_state.md R22 to R24) and the branch test (spec/43_control_flow.md R115). -/

namespace Sys2Proof.Machine

/-- The condition a word gives: "value == 0 → ZERO; sign bit set → NEGATIVE; else POSITIVE" (R24). -/
def condOf (v : Word) : Cond :=
  if v = 0x0000#16 then .zero else if v[15] then .neg else .pos

/-- `setcc(v)` (R24). -/
def State.setcc (s : State) (v : Word) : State := { s with cond := condOf v }

/-- `cond3`, the one-hot encoding: N = 0b100, Z = 0b010, P = 0b001 (R22, decision D3). -/
def Cond.bits : Cond → BitVec 3
  | .neg  => 0b100#3
  | .zero => 0b010#3
  | .pos  => 0b001#3

/-- BR's mask `IR[11:9]` = n:z:p (R115). -/
def branchMask (n z p : Bool) : BitVec 3 := BitVec.ofBool n ++ BitVec.ofBool z ++ BitVec.ofBool p

/-- Whether BR branches: the mask ANDs non-zero with `cond3` (R115). -/
def branchTaken (n z p : Bool) (c : Cond) : Bool := (branchMask n z p &&& c.bits) != 0b000#3

end Sys2Proof.Machine
end

