-- ==== Sys2Proof/Machine/Operands.lean ====
section
/-! DEFINITION. Operands: sign and zero extension, the registers, the two addressing modes (spec/00_scope.md R10,
spec/30_encoding.md R64, R65, spec/42_data_movement.md R100). -/

namespace Sys2Proof.Machine

/-- `sext_N`: the `n`-bit field with its highest bit copied into every higher bit of the word (R10). -/
def sext {n : Nat} (v : BitVec n) : Word := v.signExtend 16

/-- `zext_N`: the `n`-bit field with every higher bit of the word 0 (R10). -/
def zext {n : Nat} (v : BitVec n) : Word := v.setWidth 16

/-- `w[7:0]`: the low character of a word (spec/20_memory.md R48). -/
def lowByte (w : Word) : Byte := w.extractLsb' 0 8

/-- `w[15:8]`: the high character of a word (spec/20_memory.md R48). -/
def highByte (w : Word) : Byte := w.extractLsb' 8 8

/-- `x[i]` (R11, R20). -/
def State.getReg (s : State) (r : Reg) : Word := s.regs[r]

/-- `x[i] <- v` (R11, R20): no register is hard-wired. -/
def State.setReg (s : State) (r : Reg) (v : Word) : State := { s with regs := s.regs.set r v }

/-- The link register (R21). -/
def linkReg : Reg := 7

/-- PC-relative: `pc + sext_9(IR[8:0])` (JSR: `sext_11`), `pc` being PC* (R82, R100, R118). -/
def State.pcRelative {n : Nat} (s : State) (off : BitVec n) : Word := s.pc + sext off

/-- Base plus offset: `x[BaseR] + sext_6(IR[5:0])` (R100). -/
def State.basePlus (s : State) (base : Reg) (off : BitVec 6) : Word := s.getReg base + sext off

end Sys2Proof.Machine
end

