-- ==== Sys2Proof/Machine/Ops.lean ====
section
/-! DEFINITION. The shared operations: plain memory, the console port, the mapped keyboard registers, MemRead and MemWrite
(spec/20_memory.md R40 to R47), the hold on console input (spec/40_execution_loop.md R85), fault entry
(spec/60_exceptions.md R141). -/

namespace Sys2Proof.Machine

/-- How an instruction or a step answers. -/
abbrev Answer := Host.Outcome State Fault Refusal

/-- The plain cell at address `a` (R40); a cell that is not listed holds `Config.resetMem`. -/
def Memory.read : Memory → Nat → Word
  | [], _ => Config.resetMem
  | (b, v) :: m, a => if a = b then v else Memory.read m a

/-- The memory with `v` in front of the cells above `a`; in canonical form nothing is listed for `resetMem`. -/
def Memory.cons (a : Nat) (v : Word) (m : Memory) : Memory :=
  if v = Config.resetMem then m else (a, v) :: m

/-- The memory with the plain cell at `a` holding `v` (R40), in canonical form. -/
def Memory.write : Memory → Nat → Word → Memory
  | [], a, v => Memory.cons a v []
  | (b, u) :: m, a, v =>
    if a < b then Memory.cons a v ((b, u) :: m)
    else if a = b then Memory.cons a v m
    else (b, u) :: Memory.write m a v

/-! ### The console port (spec/00_scope.md R13, spec/10_state.md R34, R35) -/

/-- The host's next bytes become pending (R35: "at any time"; log 9). -/
def Console.arrive (c : Console) : Console :=
  match c.arrivals, c.recurring with
  | bs :: rest, _ => { c with pending := c.pending ++ bs, arrivals := rest }
  | [], bs :: rest => { c with pending := c.pending ++ bs, arrivals := rest }
  | [], [] => c

/-- `ConsolePoll()`: whether an input byte is pending, consuming nothing (R13). -/
def State.consolePoll (s : State) : Bool × State :=
  let c := s.console.arrive
  (!c.pending.isEmpty, { s with console := c })

/-- `ConsoleRead()`: the next byte, consumed; `none` where it blocks because no byte is pending (R13, R85). -/
def State.consoleRead (s : State) : Option Byte × State :=
  let c := s.console.arrive
  match c.pending with
  | [] => (none, { s with console := c })
  | b :: rest => (some b, { s with console := { c with pending := rest } })

/-- `ConsoleWrite(b)` (R13). -/
def State.consoleWrite (s : State) (b : Byte) : State :=
  { s with console := { s.console with out := s.console.out ++ [b] } }

/-- The `ConsoleWrite` of each byte in turn (R59). -/
def State.consoleWriteAll (s : State) (bs : List Byte) : State :=
  { s with console := { s.console with out := s.console.out ++ bs } }

/-- Read a byte and go on with `k`, or hold at `h` until one comes (R85). -/
def withByte (h : Hold) (k : Byte → State → Answer) (s : State) : Answer :=
  match s.consoleRead with
  | (none, s') => .next { s' with hold := some h }
  | (some b, s') => k b s'

/-! ### Memory with its mapped registers -/

/-- An address that is one of the two mapped registers (R44). -/
def Params.mapped (p : Params) (a : Word) : Bool := a == p.kbsrAddr || a == p.kbdrAddr

/-- `KbsrRead()`'s word for a poll's answer (R45, decision D6). -/
def kbsrWord (ready : Bool) : Word := if ready then 0x8000#16 else 0x0000#16

/-- `MemRead(a, 1)`, then `k` with the word read (R42): a read of KBSR polls (R45), a read of KBDR consumes a byte or holds
at `h` (R46), every other address is a plain cell. -/
def withRead (a : Word) (h : Hold) (k : Word → State → Answer) (s : State) : Answer :=
  if a = s.params.kbsrAddr then
    let (ready, s') := s.consolePoll
    k (kbsrWord ready) s'
  else if a = s.params.kbdrAddr then
    withByte h (fun b s' => k (zext b) s') s
  else
    k (s.mem.read a.addr) s

/-- `MemWrite(a, 1, v)` (R43): no effect on a mapped address. -/
def State.memWrite (s : State) (a : Word) (v : Word) : State :=
  if s.params.mapped a then s else { s with mem := s.mem.write a.addr v }

/-! ### Fault entry and what it has beside it -/

/-- `raise Fault(kind, info)` (R141): record the fault and end in FAULTED, nothing else. `word` is IR and `pc` is PC*
(R27, R140). There is no return from a fault (R143, R148), so no operation stands beside this one. -/
def State.raiseFault (s : State) (kind : FaultKind) (opcode : BitVec 4) (vector : Option Byte) : State :=
  { s with
    fault := some { kind := kind, word := s.ir, opcode := opcode, vector := vector, pc := s.pc }
    status := .faulted }

/-- The numeric code of a fault kind (R140, decision D13). -/
def FaultKind.code : FaultKind → Nat
  | .reservedOpcode => 1
  | .unknownTrapVector => 2

/-- `halt()` (R14, R132). -/
def State.halt (s : State) : State := { s with status := .halted }

end Sys2Proof.Machine
end

