-- ==== Sys2Proof/Machine/Alu.lean ====
section
/-! DEFINITION. ADD, AND and NOT (spec/41_alu.md R90 to R95). -/

namespace Sys2Proof.Machine

/-- `x[DR] <- v; setcc(x[DR])`: how every flag-setting instruction ends (spec/10_state.md R23). -/
def writeResult (dr : Reg) (v : Word) (s : State) : State := (s.setReg dr v).setcc v

/-- R91. -/
def execAddReg (dr sr1 sr2 : Reg) (s : State) : Answer :=
  .next (writeResult dr (s.getReg sr1 + s.getReg sr2) s)

/-- R92. -/
def execAddImm (dr sr1 : Reg) (imm : BitVec 5) (s : State) : Answer :=
  .next (writeResult dr (s.getReg sr1 + sext imm) s)

/-- R93. -/
def execAndReg (dr sr1 sr2 : Reg) (s : State) : Answer :=
  .next (writeResult dr (s.getReg sr1 &&& s.getReg sr2) s)

/-- R94. -/
def execAndImm (dr sr1 : Reg) (imm : BitVec 5) (s : State) : Answer :=
  .next (writeResult dr (s.getReg sr1 &&& sext imm) s)

/-- R95. -/
def execNot (dr sr : Reg) (s : State) : Answer :=
  .next (writeResult dr (~~~ s.getReg sr) s)

end Sys2Proof.Machine
end

