-- ==== Sys2Proof/Machine/ControlFlow.lean ====
section
/-! DEFINITION. BR, JMP, RET, JSR, JSRR (spec/43_control_flow.md R115 to R120) and the reserved opcodes
(spec/40_execution_loop.md R83). -/

namespace Sys2Proof.Machine

/-- `pc <- target` (spec/00_scope.md R11). -/
def State.jumpTo (s : State) (target : Word) : State := { s with pc := target }

/-- `x[7] <- pc`: the link write of JSR and JSRR, with PC* (R118, R119). -/
def State.link (s : State) : State := s.setReg linkReg s.pc

/-- R115. -/
def execBr (n z p : Bool) (off : BitVec 9) (s : State) : Answer :=
  .next (if branchTaken n z p s.cond then s.jumpTo (s.pcRelative off) else s)

/-- R116. -/
def execJmp (base : Reg) (s : State) : Answer := .next (s.jumpTo (s.getReg base))

/-- R117. -/
def execRet (s : State) : Answer := .next (s.jumpTo (s.getReg linkReg))

/-- R118. -/
def execJsr (off : BitVec 11) (s : State) : Answer :=
  let s1 := s.link
  .next (s1.jumpTo (s1.pcRelative off))

/-- R119: with `JSRR_LINK_FIRST`, BaseR is read after the link write, else before it (decision D14; log 7). -/
def execJsrr (base : Reg) (s : State) : Answer :=
  let s1 := s.link
  .next (s1.jumpTo ((if s.params.jsrrLinkFirst then s1 else s).getReg base))

/-- `Reserved(IR)` (R83). -/
def State.reservedFault (s : State) : State := s.raiseFault .reservedOpcode (s.ir.extractLsb' 12 4) none

/-- R83, opcode 0x8, the original RTI slot. -/
def execReserved8 (s : State) : Answer := .next s.reservedFault

/-- R83, opcode 0xD. -/
def execReservedD (s : State) : Answer := .next s.reservedFault

end Sys2Proof.Machine
end

