-- ==== Sys2Proof/Machine/DataMovement.lean ====
section
/-! DEFINITION. LD, LDI, LDR, LEA, ST, STI, STR (spec/42_data_movement.md R100 to R107). A read that can hold names the
`Hold` it waits in; `Machine/Fetch.lean` resumes there with the same continuation. -/

namespace Sys2Proof.Machine

/-- The end of LD, LDI and LDR, once the word has been read (R101 to R103). -/
def finishLoad (dr : Reg) (w : Word) (s : State) : Answer := .next (writeResult dr w s)

/-- LDI after its pointer read (R102). -/
def loadThrough (dr : Reg) (ptr : Word) (s : State) : Answer := withRead ptr (.load dr) (finishLoad dr) s

/-- STI after its pointer read (R106). -/
def storeThrough (sr : Reg) (ptr : Word) (s : State) : Answer := .next (s.memWrite ptr (s.getReg sr))

/-- R101. -/
def execLd (dr : Reg) (off : BitVec 9) (s : State) : Answer :=
  withRead (s.pcRelative off) (.load dr) (finishLoad dr) s

/-- R102. -/
def execLdi (dr : Reg) (off : BitVec 9) (s : State) : Answer :=
  withRead (s.pcRelative off) (.loadPointer dr) (loadThrough dr) s

/-- R103. -/
def execLdr (dr base : Reg) (off : BitVec 6) (s : State) : Answer :=
  withRead (s.basePlus base off) (.load dr) (finishLoad dr) s

/-- R104: no memory access, and `cond` is set from the address. -/
def execLea (dr : Reg) (off : BitVec 9) (s : State) : Answer :=
  .next (writeResult dr (s.pcRelative off) s)

/-- R105. -/
def execSt (sr : Reg) (off : BitVec 9) (s : State) : Answer :=
  .next (s.memWrite (s.pcRelative off) (s.getReg sr))

/-- R106. -/
def execSti (sr : Reg) (off : BitVec 9) (s : State) : Answer :=
  withRead (s.pcRelative off) (.storePointer sr) (storeThrough sr) s

/-- R107. -/
def execStr (sr base : Reg) (off : BitVec 6) (s : State) : Answer :=
  .next (s.memWrite (s.basePlus base off) (s.getReg sr))

end Sys2Proof.Machine
end

