-- ==== Sys2Proof/Machine/Trap.lean ====
section
/-! DEFINITION. The trap vectors (spec/44_trap.md R125 to R134). None writes R7, `cond`, `pc` or memory (R126). -/

namespace Sys2Proof.Machine

/-- GETC after its read (R127). -/
def finishGetc (b : Byte) (s : State) : Answer := .next (s.setReg 0 (zext b))

/-- R127. -/
def execGetc (s : State) : Answer := withByte .getc finishGetc s

/-- R128: bits 7:0 of R0 (decision D16). -/
def execOut (s : State) : Answer := .next (s.consoleWrite (lowByte (s.getReg 0)))

/-- IN after its read: the echo, then R0 (R130). -/
def finishIn (b : Byte) (s : State) : Answer := .next ((s.consoleWrite b).setReg 0 (zext b))

/-- R130: the prompt is written before the read, so it is seen during a hold. -/
def execIn (s : State) : Answer := withByte .inRead finishIn (s.consoleWriteAll s.params.inPrompt)

/-- R132. -/
def execHalt (s : State) : Answer := .next s.halt

/-- R133. -/
def execTrapUnknown (vec : Byte) (s : State) : Answer :=
  .next (s.raiseFault .unknownTrapVector 0xF#4 (some vec))

/-! ### The string routines

A scan that meets no terminator never ends (R129, I13: "A model runs it under fuel and marks it as non-terminating, never as
finished"). One model step scans at most one round of memory. A scan that has not ended by then answers the state marked as
still inside the instruction, where the next model step goes on, so an infinite step is an unending run of them (log 11). -/

/-- One round: every cell of memory once. -/
def scanRound : Nat := 65536

/-- PUTS's work on the word `w` of the cell at `a`, going on with `next` at the cell after it (R129). -/
def putsCell (next : Word → State → Answer) (a w : Word) (s : State) : Answer :=
  if w = 0x0000#16 then .next s else next (a + 1) (s.consoleWrite (lowByte w))

/-- PUTS's loop over at most so many cells (R129). -/
def putsLoop : Nat → Word → State → Answer
  | 0, a, s => .next { s with hold := some (.putsRound a) }
  | fuel + 1, a, s => withRead a (.puts a) (fun w => putsCell (putsLoop fuel) a w) s

/-- PUTS from the cell at `a` on (R129). -/
def putsFrom (a : Word) (s : State) : Answer := putsLoop scanRound a s

/-- R129. -/
def execPuts (s : State) : Answer := putsFrom (s.getReg 0) s

/-- PUTSP's work on the word `w` of the cell at `a`, low character first, going on with `next` (R131). -/
def putspCell (next : Word → State → Answer) (a w : Word) (s : State) : Answer :=
  if lowByte w = 0x00#8 then .next s
  else if highByte w = 0x00#8 then .next (s.consoleWrite (lowByte w))
  else next (a + 1) ((s.consoleWrite (lowByte w)).consoleWrite (highByte w))

/-- PUTSP's loop over at most so many cells (R131). -/
def putspLoop : Nat → Word → State → Answer
  | 0, a, s => .next { s with hold := some (.putspRound a) }
  | fuel + 1, a, s => withRead a (.putsp a) (fun w => putspCell (putspLoop fuel) a w) s

/-- PUTSP from the cell at `a` on (R131). -/
def putspFrom (a : Word) (s : State) : Answer := putspLoop scanRound a s

/-- R131. -/
def execPutsp (s : State) : Answer := putspFrom (s.getReg 0) s

end Sys2Proof.Machine
end

