-- ==== Sys2Proof/Machine/Fetch.lean ====
section
/-! DEFINITION. Fetch, decode and dispatch (spec/40_execution_loop.md R81), resuming a held step (R85), and where a word has
to stand to be fetched next. -/

namespace Sys2Proof.Machine

/-- The state after the fetch of `w`: IR, PC* and `icount` (R81, R82). -/
def State.fetched (s : State) (w : Word) : State :=
  { s with ir := w, pc := s.pc + 1, icount := s.icount + 1 }

/-- Decode and execute the fetched word (R81). -/
def runFetched (w : Word) (s : State) : Answer := exec (decode w) (s.fetched w)

/-- One step of a running CORE that holds nothing: the fetch reads through MemRead (R47, R81). -/
def fetchAndRun (s : State) : Answer := withRead s.pc .fetch runFetched s

/-- Go on inside the instruction: a hold tries its console read again, and with a byte does what is left of the instruction
(R85: "The step then finishes with that byte"), without one goes on holding (log 10); a scan goes on with its next round. -/
def resume (h : Hold) (held : State) : Answer :=
  let s := { held with hold := none }
  match h with
  | .fetch => withByte h (fun b => runFetched (zext b)) s
  | .load dr => withByte h (fun b => finishLoad dr (zext b)) s
  | .loadPointer dr => withByte h (fun b => loadThrough dr (zext b)) s
  | .storePointer sr => withByte h (fun b => storeThrough sr (zext b)) s
  | .getc => withByte h finishGetc s
  | .inRead => withByte h finishIn s
  | .puts a => withByte h (fun b => putsCell putsFrom a (zext b)) s
  | .putsp a => withByte h (fun b => putspCell putspFrom a (zext b)) s
  | .putsRound a => putsFrom a s
  | .putspRound a => putspFrom a s

/-- The first address from `pc` on that is a plain cell: where a word can be stored so that a fetch reads it. -/
def State.fetchHome (s : State) : Word :=
  if s.params.mapped s.pc then
    if s.params.mapped (s.pc + 1) then s.pc + 2 else s.pc + 1
  else s.pc

/-- The state with `w` stored as the next word a step fetches: in the cell at `pc`, or at the next plain cell with `pc` moved
there where `pc` is a mapped address, in a CORE that runs and holds nothing (log 17). -/
def State.placeFetchWord (s : State) (w : Word) : State :=
  { s with
    mem := s.mem.write s.fetchHome.addr w
    pc := s.fetchHome
    status := .running
    hold := none }

end Sys2Proof.Machine
end

