-- ==== Sys2Proof/Machine/Step.lean ====
section
/-! DEFINITION. One step of the CORE (spec/40_execution_loop.md R80, R81, R85). -/

namespace Sys2Proof.Machine

/-- One step. None exists in HALTED or FAULTED (R80; log 12); an unfinished step goes on (R85); else fetch, decode, execute
(R81). -/
def step (s : State) : Host.Outcome State Fault Refusal :=
  match s.status with
  | .halted => .fault .halted
  | .faulted => .fault .faulted
  | .running =>
    match s.hold with
    | some h => resume h s
    | none => fetchAndRun s

/-- `s` with the table's word `w` (of `nbits` bits) placed where the next step fetches. -/
def State.withFetchWord (s : State) (nbits w : Nat) : State :=
  s.placeFetchWord (BitVec.ofNat 16 (w % 2 ^ nbits))

end Sys2Proof.Machine
end

