-- ==== Sys2Proof/Machine/HostPort.lean ====
section
/-! DEFINITION. The host port: launching with a program image and a console collaborator, and supplying input (spec/10_state.md R35,
spec/70_reset_and_hazards.md R160 to R163). The loader is outside the CORE (spec/00_scope.md R5); what is written here is its
output contract, the reset state it produces (log 20). -/

namespace Sys2Proof.Machine

/-- Load the words at rising addresses from `a`, modulo 2^16, directly and not through MemWrite (R162). -/
def Memory.load (m : Memory) (a : Word) : List Word → Memory
  | [] => m
  | w :: ws => Memory.load (m.write a.addr w) (a + 1) ws

/-- Launch (R35): the reset state for an image, its origin and its program words (R37, R160, R162), and for the console
collaborator the host supplies, with what it holds and what it will answer (log 9). -/
def State.launch (p : Params) (collaborator : Console) (origin : Word) (words : List Word) : State :=
  { State.reset with
    mem := Memory.load [] origin words
    pc := origin
    console := collaborator
    params := p }

/-- The big-endian words of an image's bytes; `none` for an odd length, a truncated image (R162, R163). -/
def imageWords : List Byte → Option (List Word)
  | [] => some []
  | [_] => none
  | hi :: lo :: rest => (imageWords rest).map (fun ws => (hi ++ lo) :: ws)

/-- Launch with an image's bytes. No run exists for a truncated or empty image (R163), nor for one of more than
65,536 program words (decision D24). -/
def State.loadImage (p : Params) (collaborator : Console) (image : List Byte) : Option State :=
  match imageWords image with
  | some (origin :: words) => if words.length ≤ 65536 then some (State.launch p collaborator origin words) else none
  | _ => none

/-- The host makes bytes pending (R35: "supply input"). -/
def State.supplyInput (s : State) (bs : List Byte) : State :=
  { s with console := { s.console with pending := s.console.pending ++ bs } }

/-- The host decides what it will make pending from here on, at which of the CORE's calls: `arrivals`, then `recurring` over and
over (R35: "at any time"; log 9). What is already pending stays. -/
def State.scheduleInput (s : State) (arrivals recurring : List (List Byte)) : State :=
  { s with console := { s.console with arrivals := arrivals, recurring := recurring } }

end Sys2Proof.Machine
end

