-- ==== Sys2Proof/Safety.lean ====
section
/-! DEFINITION. What claims about the CORE are stated in: how a run has ended, what a memory read, a register result and a
store are, in words of their own beside the machine's functions, and the invariant every step keeps. -/

namespace Sys2Proof.Machine

/-! ### How a run ends (spec/40_execution_loop.md R87, spec/60_exceptions.md R144) -/

/-- "program completed" (R144): HALTED and no fault. -/
def State.completed (s : State) : Prop := s.status = .halted ∧ s.fault = none

/-- "program crashed" (R144): FAULTED with the record set (R141). -/
def State.crashed (s : State) : Prop := s.status = .faulted ∧ s.fault ≠ none

/-! ### What MemRead gives (spec/20_memory.md R42, R45, R46) -/

/-- The console when the CORE next calls its input side: the host's next bytes have arrived (log 9). -/
def State.consoleNow (s : State) : Console := s.console.arrive

/-- A `ConsoleRead` in `s` returns `b` and leaves `s'` (R13): the oldest pending byte, consumed. -/
def State.readsByte (s : State) (b : Byte) (s' : State) : Prop :=
  ∃ rest, s.consoleNow.pending = b :: rest ∧ s' = { s with console := { s.consoleNow with pending := rest } }

/-- A `ConsoleRead` in `s` blocks, leaving `s'` (R85): no byte is pending. -/
def State.byteHolds (s s' : State) : Prop :=
  s.consoleNow.pending = [] ∧ s' = { s with console := s.consoleNow }

/-- `MemRead(a, 1)` in `s` returns `w` and leaves `s'`: from a plain cell, from KBSR, or from KBDR. -/
def State.reads (s : State) (a w : Word) (s' : State) : Prop :=
  (a ≠ s.params.kbsrAddr ∧ a ≠ s.params.kbdrAddr ∧ w = s.mem.read a.addr ∧ s' = s) ∨
  (a = s.params.kbsrAddr ∧ w = (if s.consoleNow.pending = [] then 0x0000#16 else 0x8000#16) ∧
    s' = { s with console := s.consoleNow }) ∨
  (a ≠ s.params.kbsrAddr ∧ a = s.params.kbdrAddr ∧ ∃ b, s.readsByte b s' ∧ w.toNat = b.toNat)

/-- `MemRead(a, 1)` in `s` holds, leaving `s'`: a KBDR read with no input pending. -/
def State.readHolds (s : State) (a : Word) (s' : State) : Prop :=
  a ≠ s.params.kbsrAddr ∧ a = s.params.kbdrAddr ∧ s.byteHolds s'

/-- The console after the host's next `calls` entries have arrived. -/
def Console.afterCalls (c : Console) : Nat → Console
  | 0 => c
  | calls + 1 => (c.afterCalls calls).arrive

/-- `d` is `c` with the bytes `used` taken off the front of what is pending, the input side being otherwise as it was. -/
structure Console.tookFrom (c d : Console) (used : List Byte) : Prop where
  pending : c.pending = used ++ d.pending
  arrivals : d.arrivals = c.arrivals
  recurring : d.recurring = c.recurring

/-- Between `s` and `t` the bytes `used` were consumed: some entries of the host's script arrived, `used` is the front of what
was then pending, and the rest is still pending in its order. -/
def State.consumed (s t : State) (used : List Byte) : Prop :=
  ∃ calls, (s.console.afterCalls calls).tookFrom t.console used

/-- 1 where a read at `a` is a read of KBDR, else 0 (spec/20_memory.md R46). -/
def State.kbdrReads (s : State) (a : Word) : Nat := if a = s.params.kbdrAddr then 1 else 0

/-- How many `ConsoleRead`s an instruction can make in one model step, its fetch aside (spec/20_memory.md R47,
spec/44_trap.md R125): a pointer read from a device can be any address. -/
def consoleReads (i : Instr) (s : State) : Nat :=
  match i with
  | .trapGetc | .trapIn | .trapPuts | .trapPutsp => 1
  | .ld _ off | .sti _ off => s.kbdrReads (s.pcRelative off)
  | .ldr _ base off => s.kbdrReads (s.basePlus base off)
  | .ldi _ off =>
    let a := s.pcRelative off
    if s.params.mapped a then s.kbdrReads a + 1 else s.kbdrReads (s.mem.read a.addr)
  | .br _ _ _ _ | .jmp _ | .ret | .jsr _ | .jsrr _ | .addReg _ _ _ | .addImm _ _ _ | .andReg _ _ _ | .andImm _ _ _
  | .notR _ _ | .lea _ _ | .st _ _ | .str _ _ _ | .trapOut | .trapHalt | .trapUnknown _ | .reserved8 | .reservedD => 0

/-! ### What an instruction writes -/

/-- `t` is `s` with `v` in register `dr`, every other register and everything else as it was. -/
def State.wroteReg (s t : State) (dr : Reg) (v : Word) : Prop :=
  (∀ r, t.getReg r = if r = dr then v else s.getReg r) ∧ t = { s with regs := t.regs }

/-- `t` is `s` with `v` in register `dr` and `cond` set from `v` (spec/10_state.md R23, R24), everything else as it was. -/
def State.wroteResult (s t : State) (dr : Reg) (v : Word) : Prop :=
  (∀ r, t.getReg r = if r = dr then v else s.getReg r) ∧
  (t.cond = .neg ↔ v.toInt < 0) ∧ (t.cond = .zero ↔ v.toInt = 0) ∧ (t.cond = .pos ↔ 0 < v.toInt) ∧
  t = { s with regs := t.regs, cond := t.cond }

/-- `t` is `s` after a store of `v` at `a` (spec/20_memory.md R43): `s` itself where `a` is mapped, else every plain cell but
`a` reads as it did, `a` reads as `v`, and everything outside memory is as it was. -/
def State.wroteCell (s t : State) (a v : Word) : Prop :=
  if a = s.params.kbsrAddr ∨ a = s.params.kbdrAddr then t = s
  else (∀ b : Word, t.mem.read b.addr = if b = a then v else s.mem.read b.addr) ∧ t = { s with mem := t.mem }

/-- `t` is `s` with the bytes `bs` written to the console, in order, everything else as it was (R59). -/
def State.wroteOut (s t : State) (bs : List Byte) : Prop :=
  t = { s with console := { s.console with out := s.console.out ++ bs } }

/-! ### The string scans (spec/44_trap.md R129, R131) -/

/-- From the cell at `a` in `s`, PUTS passes `n` cells, none of them 0, and leaves `t`. -/
def State.putsPasses (s : State) (n : Nat) (a : Word) (t : State) : Prop :=
  match n with
  | 0 => t = s
  | n + 1 => ∃ w s' u, s.reads a w s' ∧ w ≠ 0x0000#16 ∧ s'.wroteOut u [BitVec.ofNat 8 w.toNat] ∧ u.putsPasses n (a + 1) t

/-- From the cell at `a` in `s`, PUTSP passes `n` cells, none of whose characters is 0, and leaves `t`. -/
def State.putspPasses (s : State) (n : Nat) (a : Word) (t : State) : Prop :=
  match n with
  | 0 => t = s
  | n + 1 => ∃ w s' u, s.reads a w s' ∧ w.toNat % 256 ≠ 0 ∧ w.toNat / 256 ≠ 0 ∧
      s'.wroteOut u [BitVec.ofNat 8 w.toNat, BitVec.ofNat 8 (w.toNat / 256)] ∧ u.putspPasses n (a + 1) t

/-- No plain cell holds PUTS's terminator. -/
def State.unterminated (s : State) : Prop :=
  ∀ a : Word, a ≠ s.params.kbsrAddr → a ≠ s.params.kbdrAddr → s.mem.read a.addr ≠ 0x0000#16

/-- The host supplies input without end, some at every call, and no byte of it is 0. -/
def Console.neverRunsDry (c : Console) : Prop :=
  c.recurring ≠ [] ∧ 0x00#8 ∉ c.pending ∧ ∀ bs ∈ c.arrivals ++ c.recurring, bs ≠ [] ∧ 0x00#8 ∉ bs

/-! ### The kinds of instruction -/

/-- The general register an instruction may write (spec/10_state.md R21). -/
def destination : Instr → Option Reg
  | .addReg dr _ _ | .addImm dr _ _ | .andReg dr _ _ | .andImm dr _ _ | .notR dr _ | .ld dr _ | .ldi dr _ | .ldr dr _ _
  | .lea dr _ => some dr
  | .jsr _ | .jsrr _ => some 7
  | .trapGetc | .trapIn => some 0
  | .st _ _ | .sti _ _ | .str _ _ _ | .br _ _ _ _ | .jmp _ | .ret | .trapOut | .trapPuts | .trapPutsp | .trapHalt
  | .trapUnknown _ | .reserved8 | .reservedD => none

/-- The instructions whose register write sets `cond` (R23). -/
def setsCond : Instr → Bool
  | .addReg _ _ _ | .addImm _ _ _ | .andReg _ _ _ | .andImm _ _ _ | .notR _ _ | .ld _ _ | .ldi _ _ | .ldr _ _ _
  | .lea _ _ => true
  | .jsr _ | .jsrr _ | .trapGetc | .trapIn | .st _ _ | .sti _ _ | .str _ _ _ | .br _ _ _ _ | .jmp _ | .ret | .trapOut
  | .trapPuts | .trapPutsp | .trapHalt | .trapUnknown _ | .reserved8 | .reservedD => false

/-- The instructions that write `pc` (spec/10_state.md R25). -/
def writesPc : Instr → Bool
  | .br _ _ _ _ | .jmp _ | .ret | .jsr _ | .jsrr _ => true
  | .addReg _ _ _ | .addImm _ _ _ | .andReg _ _ _ | .andImm _ _ _ | .notR _ _ | .ld _ _ | .ldi _ _ | .ldr _ _ _
  | .lea _ _ | .st _ _ | .sti _ _ | .str _ _ _ | .trapGetc | .trapOut | .trapPuts | .trapIn | .trapPutsp | .trapHalt
  | .trapUnknown _ | .reserved8 | .reservedD => false

/-- The instructions that write memory (spec/20_memory.md R47). -/
def storesCell : Instr → Bool
  | .st _ _ | .sti _ _ | .str _ _ _ => true
  | .br _ _ _ _ | .jmp _ | .ret | .jsr _ | .jsrr _ | .addReg _ _ _ | .addImm _ _ _ | .andReg _ _ _ | .andImm _ _ _
  | .notR _ _ | .ld _ _ | .ldi _ _ | .ldr _ _ _ | .lea _ _ | .trapGetc | .trapOut | .trapPuts | .trapIn | .trapPutsp
  | .trapHalt | .trapUnknown _ | .reserved8 | .reservedD => false

/-- The instructions that write to the console (spec/10_state.md R34). -/
def writesConsole : Instr → Bool
  | .trapOut | .trapPuts | .trapIn | .trapPutsp => true
  | .br _ _ _ _ | .jmp _ | .ret | .jsr _ | .jsrr _ | .addReg _ _ _ | .addImm _ _ _ | .andReg _ _ _ | .andImm _ _ _
  | .notR _ _ | .ld _ _ | .ldi _ _ | .ldr _ _ _ | .lea _ _ | .st _ _ | .sti _ _ | .str _ _ _ | .trapGetc | .trapHalt
  | .trapUnknown _ | .reserved8 | .reservedD => false

/-- The TRAP rows (spec/44_trap.md R125). -/
def isTrap : Instr → Bool
  | .trapGetc | .trapOut | .trapPuts | .trapIn | .trapPutsp | .trapHalt | .trapUnknown _ => true
  | .br _ _ _ _ | .jmp _ | .ret | .jsr _ | .jsrr _ | .addReg _ _ _ | .addImm _ _ _ | .andReg _ _ _ | .andImm _ _ _
  | .notR _ _ | .ld _ _ | .ldi _ _ | .ldr _ _ _ | .lea _ _ | .st _ _ | .sti _ _ | .str _ _ _ | .reserved8
  | .reservedD => false

/-- The rows that fault (spec/60_exceptions.md R140). -/
def raisesFault : Instr → Bool
  | .reserved8 | .reservedD | .trapUnknown _ => true
  | .br _ _ _ _ | .jmp _ | .ret | .jsr _ | .jsrr _ | .addReg _ _ _ | .addImm _ _ _ | .andReg _ _ _ | .andImm _ _ _
  | .notR _ _ | .ld _ _ | .ldi _ _ | .ldr _ _ _ | .lea _ _ | .st _ _ | .sti _ _ | .str _ _ _ | .trapGetc | .trapOut
  | .trapPuts | .trapIn | .trapPutsp | .trapHalt => false

/-- The answer with `f` applied to its next state. -/
def mapNext (f : State → State) : Answer → Answer
  | .next s => .next (f s)
  | .fault r => .fault r
  | .refused r => .refused r

/-! ### The invariant -/

/-- A fault record's fields agree with each other as R27 and R140 say. -/
def FaultRecord.consistent (r : FaultRecord) : Prop :=
  r.opcode = r.word.extractLsb' 12 4 ∧
  match r.kind with
  | .reservedOpcode => (r.opcode = 0x8#4 ∨ r.opcode = 0xD#4) ∧ r.vector = none
  | .unknownTrapVector =>
    r.opcode = 0xF#4 ∧ r.vector = some (r.word.extractLsb' 0 8) ∧ r.word.extractLsb' 0 8 ∉ knownVectors

/-- What a hold says of the state it holds in: in the fetch, and in the scans of PUTS and PUTSP, the address being read is
KBDR's (R46, R85). The holds of the loads, of STI and of GETC and IN keep no address. No scan of PUTSP comes all the way round
(R131, R45). -/
def Hold.consistent (h : Hold) (s : State) : Prop :=
  match h with
  | .fetch => s.pc = s.params.kbdrAddr
  | .puts a | .putsp a => a = s.params.kbdrAddr
  | .putspRound _ => False
  | .load _ | .loadPointer _ | .storePointer _ | .getc | .inRead | .putsRound _ => True

/-- The invariant: memory is in canonical form, the mapped addresses differ (R44), the fault record is there exactly in
FAULTED (R26, R27) and describes the word that faulted, a hold is only there in RUNNING (R85). -/
structure State.Inv (s : State) : Prop where
  memory : s.mem.wf
  mappedDiffer : s.params.kbsrAddr ≠ s.params.kbdrAddr
  faultIffFaulted : s.fault ≠ none ↔ s.status = .faulted
  faultRecord : ∀ r, s.fault = some r → r.consistent ∧ r.word = s.ir ∧ r.pc = s.pc
  holdRunning : s.hold ≠ none → s.status = .running
  holdPlace : ∀ h, s.hold = some h → h.consistent s

/-! ### Two states that only differ in what no program can see (spec/20_memory.md R44) -/

/-- `s` and `t` agree but for the stored contents of the two mapped cells. -/
structure State.sameButMappedCells (s t : State) : Prop where
  fields : t = { s with mem := t.mem }
  cells : ∀ a : Word, a ≠ s.params.kbsrAddr → a ≠ s.params.kbdrAddr → s.mem.read a.addr = t.mem.read a.addr

/-- Two answers of one kind whose next states are so related. -/
def answersAlike : Answer → Answer → Prop
  | .next s, .next t => s.sameButMappedCells t
  | .fault r, .fault q => r = q
  | .refused r, .refused q => r = q
  | _, _ => False

end Sys2Proof.Machine
end

