-- ==== Sys2Proof/Certificates/Slice0/Obligations.lean ====
section
/-! DEFINITION. The statements for the provers. Relations such as `State.reads`, `State.wroteResult` and `State.wroteCell` are in
`Sys2Proof/Safety.lean`; an equation `t = {s with …}` is a frame: every field not named, the whole of memory among them, is
as it was. `exec i s` runs `i` in the state its fetch left, so `s.pc` is PC* (spec/40_execution_loop.md R82). Opcode values
and field positions that the spec marks as general knowledge are the spec's own choice (D1 to D3; log 16). -/

open Sys2Proof Sys2Proof.Machine

/-! ### Encoding -/

/-- Words written out from the bit strings of R62, one or more for each family (opcode values: log 16; that the JMP word with
BaseR = 7 decodes to RET: log 15). -/
def Obligations.SampleWordsDecodeAsTheirBitStrings : Prop :=
  decode 0b0001_001_000_1_00101#16 = .addImm 1 0 5 ∧
  decode 0b0101_001_010_0_00_011#16 = .andReg 1 2 3 ∧
  decode 0b1001_011_011_000000#16 = .notR 3 3 ∧
  decode 0b0110_010_001_000001#16 = .ldr 2 1 1 ∧
  decode 0b1011_001_000000000#16 = .sti 1 0 ∧
  decode 0b0000_010_111111101#16 = .br false true false 0b111111101#9 ∧
  decode 0b0100_0_00_011_000000#16 = .jsrr 3 ∧
  decode 0b1100_111_111_111111#16 = .ret ∧
  decode 0b1111_1111_00100101#16 = .trapHalt ∧
  decode 0b1000_000011000000#16 = .reserved8

/-- The row the decoder picks is one whose fixed bits the word has, and its operands are admitted by that row. For most words
that is the one row that is no alias (R66, derived there). For `1100 xxx 111 xxxxxx` the decoder picks the alias row RET, which
is the model's choice, with the mask 0xF1C0 that R117's words give and not the table's 0xFFC0 (DEDUCED: log 15). -/
def Obligations.EveryWordDecodesToItsRow : Prop :=
  ∀ w : Word, (decode w).WellFormed ∧ w &&& (decode w).rowMask = (decode w).rowMatch

/-- Decoding the word of a well-formed instruction gives the instruction, every operand at every value (RET is one of its own, no
JMP with BaseR = 7: log 15). -/
def Obligations.DecodeInvertsEncode : Prop :=
  ∀ i : Instr, i.WellFormed → decode (encode i) = i

/-- R67: the words that decode to an instruction are exactly those that agree with its word on the bits that are not
ignored (the encoder's values there: log 14; RET and its BaseR bits: R117, log 15). So an ignored bit never matters and any other
bit always does, and no word has two meanings. -/
def Obligations.DecodeIgnoresExactlyTheUnusedBits : Prop :=
  ∀ (i : Instr) (w : Word), i.WellFormed → (decode w = i ↔ w &&& i.usedBits = encode i &&& i.usedBits)

/-! ### Operands and flags -/

/-- R10: `sext_N` copies bit N-1 into bits 15..N and keeps the signed value; `zext_N` clears bits 15..N. -/
def Obligations.ExtensionsCopyTheSignOrClear : Prop :=
  ∀ (n : Nat) (v : BitVec n), 1 ≤ n → n ≤ 16 →
    (∀ k, k < 16 → (sext v).getLsbD k = if k < n then v.getLsbD k else v.getLsbD (n - 1)) ∧
    (∀ k, k < 16 → (zext v).getLsbD k = if k < n then v.getLsbD k else false) ∧
    (sext v).toInt = v.toInt

/-- R24: "value == 0 → ZERO; sign bit set → NEGATIVE; else POSITIVE", from the value alone, and nothing else changes. -/
def Obligations.SetccFollowsTheWrittenValue : Prop :=
  ∀ (s : State) (v : Word),
    (v = 0x0000#16 → (s.setcc v).cond = .zero) ∧
    (v.getLsbD 15 = true → (s.setcc v).cond = .neg) ∧
    (v ≠ 0x0000#16 → v.getLsbD 15 = false → (s.setcc v).cond = .pos) ∧
    s.setcc v = { s with cond := (s.setcc v).cond }

/-! ### The step -/

/-- A running CORE that holds nothing, with `pc` on a plain cell, executes the instruction in that cell, with IR the word, `pc`
one further and the count one higher (R81, R82; the dispatch's opcode values: log 16). -/
def Obligations.StepRunsTheFetchedInstruction : Prop :=
  ∀ s : State, s.status = .running → s.hold = none → s.pc ≠ s.params.kbsrAddr → s.pc ≠ s.params.kbdrAddr →
    let w := s.mem.read s.pc.addr
    step s = exec (decode w) { s with ir := w, pc := s.pc + 1, icount := s.icount + 1 }

/-- The fetch reads through MemRead (R47; decision D8, log 19): at KBSR it polls (its word: D6), at KBDR it consumes a byte, which
is the instruction, or holds with `pc` and the count as they were (R85). That a KBDR read with no input holds is decision D7
(log 19), and that a hold is a next state with `hold` set is the model's choice (log 10). -/
def Obligations.FetchReadsThroughTheMappedRegisters : Prop :=
  ∀ s : State, s.status = .running → s.hold = none →
    (∀ w s', s.reads s.pc w s' →
      step s = exec (decode w) { s' with ir := w, pc := s.pc + 1, icount := s.icount + 1 }) ∧
    (∀ s', s.readHolds s.pc s' → step s = .next { s' with hold := some .fetch })

/-- R80: a step exists only when `status` is RUNNING; in HALTED and FAULTED the CORE "takes no step, fetches nothing and
changes no state". -/
def Obligations.NoStepOnceHaltedOrFaulted : Prop :=
  ∀ s : State, s.status = .halted ∨ s.status = .faulted → ∀ t, step s ≠ .next t

/-- How the model says that no step exists: the stop names the terminal status (the model's choice, log 12). -/
def Obligations.TerminalStatusIsNamedByTheStop : Prop :=
  ∀ s : State, (s.status = .halted → step s = .fault .halted) ∧ (s.status = .faulted → step s = .fault .faulted)

/-- A model step of a running CORE always answers a state, so the model's stops are reached only after HALT or a fault. From the
spec: "all memory and register accesses are total functions". The model's choice: that the CORE's own fault is a next state
(log 13), that a step waiting for input, which by R46 and R85 is not finished, answers one too (log 10), and so does a scan of
PUTS that does not end, one for each round (log 11). -/
def Obligations.RunningStepAlwaysAnswersAState : Prop :=
  ∀ s : State, s.status = .running → ∃ t, step s = .next t

/-- Every step keeps the invariant of `Sys2Proof/Safety.lean`: memory in canonical form, the mapped addresses distinct, the fault
record there exactly in FAULTED and describing the word that faulted with `pc` PC* (decision D12, log 13), `hold` only in RUNNING.
A hold of the fetch, of PUTS or of PUTSP is at KBDR, of the other holds no place is said, and PUTSP never comes all the way round
(KBSR's word, D6, ends it). The field `hold` is the model's choice (logs 10, 11). -/
def Obligations.StepKeepsTheInvariant : Prop :=
  ∀ s t : State, s.Inv → step s = .next t → t.Inv

/-- The state after reset meets the invariant. -/
def Obligations.ResetMeetsTheInvariant : Prop :=
  State.reset.Inv

/-- R37's values after reset. They are the spec's decisions D9 to D11 and D21; `pc` with no image is the model's choice,
the conventional origin (log 1). -/
def Obligations.ResetLeavesTheListedValues : Prop :=
  (∀ r, State.reset.getReg r = 0x0000#16) ∧ State.reset.pc = 0x3000#16 ∧ State.reset.cond = .zero ∧
  State.reset.status = .running ∧ State.reset.fault = none ∧ State.reset.icount = 0 ∧
  (∀ a : Word, State.reset.mem.read a.addr = 0x0000#16) ∧ State.reset.hold = none

/-! ### ALU -/

/-- R91, from the word to its effect: DR gets SR1 + SR2 modulo 2^16, `cond` follows it, and nothing else changes; bits 4:3 are
free. -/
def Obligations.AddRegisterModeAddsModuloWordSize : Prop :=
  ∀ (w : Word) (dr sr1 sr2 : Reg) (s : State),
    w.extractLsb' 12 4 = 0x1#4 → w.getLsbD 5 = false →
    dr.val = (w.extractLsb' 9 3).toNat → sr1.val = (w.extractLsb' 6 3).toNat → sr2.val = (w.extractLsb' 0 3).toNat →
    decode w = .addReg dr sr1 sr2 ∧
    ∃ t, exec (.addReg dr sr1 sr2) s = .next t ∧
      s.wroteResult t dr (BitVec.ofNat 16 ((s.getReg sr1).toNat + (s.getReg sr2).toNat))

/-- R92, from the word to its effect: DR gets SR1 plus the signed 5-bit immediate, modulo 2^16. -/
def Obligations.AddImmediateModeAddsTheSignedField : Prop :=
  ∀ (w : Word) (dr sr1 : Reg) (s : State),
    w.extractLsb' 12 4 = 0x1#4 → w.getLsbD 5 = true →
    dr.val = (w.extractLsb' 9 3).toNat → sr1.val = (w.extractLsb' 6 3).toNat →
    decode w = .addImm dr sr1 (w.extractLsb' 0 5) ∧
    ∃ t, exec (.addImm dr sr1 (w.extractLsb' 0 5)) s = .next t ∧
      s.wroteResult t dr (BitVec.ofInt 16 ((s.getReg sr1).toInt + (w.extractLsb' 0 5).toInt))

/-- AND of both modes: DR gets the bitwise AND, the immediate taken as a signed number, and `cond` follows it. -/
def Obligations.AndWritesTheBitwiseAnd : Prop :=
  (∀ (dr sr1 sr2 : Reg) (s : State), ∃ t, exec (.andReg dr sr1 sr2) s = .next t ∧
    s.wroteResult t dr (s.getReg sr1 &&& s.getReg sr2)) ∧
  (∀ (dr sr1 : Reg) (imm : BitVec 5) (s : State), ∃ t, exec (.andImm dr sr1 imm) s = .next t ∧
    s.wroteResult t dr (s.getReg sr1 &&& BitVec.ofInt 16 imm.toInt))

/-- NOT: DR gets the complement of SR, which as a signed number is -SR - 1. -/
def Obligations.NotWritesTheComplement : Prop :=
  ∀ (dr sr : Reg) (s : State), ∃ t, exec (.notR dr sr) s = .next t ∧
    s.wroteResult t dr (BitVec.ofInt 16 (-(s.getReg sr).toInt - 1))

/-! ### Data movement -/

/-- LD: DR gets the word MemRead returns at PC* plus the signed offset (KBSR's word: decision D6, log 19); at KBDR with no input it
holds, nothing written (decision D7, log 19; a hold is a next state with `hold` set: log 10). -/
def Obligations.LdLoadsFromPcPlusOffset : Prop :=
  ∀ (dr : Reg) (off : BitVec 9) (s : State) (a : Word), a = BitVec.ofInt 16 (s.pc.toInt + off.toInt) →
    (∀ w s', s.reads a w s' → ∃ t, exec (.ld dr off) s = .next t ∧ s'.wroteResult t dr w) ∧
    (∀ s', s.readHolds a s' → exec (.ld dr off) s = .next { s' with hold := some (.load dr) })

/-- LDI: two reads in order, the first giving the address of the second, each through MemRead, mapped addresses included
(decision D8, log 19; KBSR's word: D6); either may hold (decision D7, log 19; a next state with `hold` set: log 10). -/
def Obligations.LdiLoadsThroughAPointer : Prop :=
  ∀ (dr : Reg) (off : BitVec 9) (s : State) (a : Word), a = BitVec.ofInt 16 (s.pc.toInt + off.toInt) →
    (∀ ptr s1 w s2, s.reads a ptr s1 → s1.reads ptr w s2 →
      ∃ t, exec (.ldi dr off) s = .next t ∧ s2.wroteResult t dr w) ∧
    (∀ ptr s1 s2, s.reads a ptr s1 → s1.readHolds ptr s2 →
      exec (.ldi dr off) s = .next { s2 with hold := some (.load dr) }) ∧
    (∀ s1, s.readHolds a s1 → exec (.ldi dr off) s = .next { s1 with hold := some (.loadPointer dr) })

/-- LDR: DR gets the word MemRead returns at the old BaseR plus the signed offset (KBSR's word: decision D6, log 19); at KBDR with
no input it holds (decision D7, log 19; a next state with `hold` set: log 10). -/
def Obligations.LdrLoadsFromBasePlusOffset : Prop :=
  ∀ (dr base : Reg) (off : BitVec 6) (s : State) (a : Word),
    a = BitVec.ofInt 16 ((s.getReg base).toInt + off.toInt) →
    (∀ w s', s.reads a w s' → ∃ t, exec (.ldr dr base off) s = .next t ∧ s'.wroteResult t dr w) ∧
    (∀ s', s.readHolds a s' → exec (.ldr dr base off) s = .next { s' with hold := some (.load dr) })

/-- LEA: DR gets the address itself and sets `cond` from it; no memory or console access, even at a mapped address. -/
def Obligations.LeaWritesTheAddress : Prop :=
  ∀ (dr : Reg) (off : BitVec 9) (s : State), ∃ t, exec (.lea dr off) s = .next t ∧
    s.wroteResult t dr (BitVec.ofInt 16 (s.pc.toInt + off.toInt))

/-- ST and STR: SR's word goes to the effective address, which is all that changes; a mapped address is not written. -/
def Obligations.StAndStrStoreAtTheirAddress : Prop :=
  (∀ (sr : Reg) (off : BitVec 9) (s : State), s.mem.wf →
    ∃ t, exec (.st sr off) s = .next t ∧ s.wroteCell t (BitVec.ofInt 16 (s.pc.toInt + off.toInt)) (s.getReg sr)) ∧
  (∀ (sr base : Reg) (off : BitVec 6) (s : State), s.mem.wf →
    ∃ t, exec (.str sr base off) s = .next t ∧
      s.wroteCell t (BitVec.ofInt 16 ((s.getReg base).toInt + off.toInt)) (s.getReg sr))

/-- STI: the pointer is read through MemRead, mapped addresses included (decision D8, log 19; KBSR's word: D6), then SR's word goes
to where it points; the pointer read may hold (decision D7, log 19; a next state with `hold` set: log 10). -/
def Obligations.StiStoresThroughAPointer : Prop :=
  ∀ (sr : Reg) (off : BitVec 9) (s : State) (a : Word), s.mem.wf → a = BitVec.ofInt 16 (s.pc.toInt + off.toInt) →
    (∀ ptr s', s.reads a ptr s' → ∃ t, exec (.sti sr off) s = .next t ∧ s'.wroteCell t ptr (s.getReg sr)) ∧
    (∀ s', s.readHolds a s' → exec (.sti sr off) s = .next { s' with hold := some (.storePointer sr) })

/-- R43: MemWrite sets the one plain cell; "mapped registers are read-only from the program's perspective". -/
def Obligations.MemWriteSetsOnePlainCell : Prop :=
  ∀ (s : State) (a v : Word), s.mem.wf → s.wroteCell (s.memWrite a v) a v

/-- A store is seen by the next fetch (R56, derived there): ST with offset 0 writes the word the next step executes. -/
def Obligations.StoredWordIsTheNextInstruction : Prop :=
  ∀ (sr : Reg) (s t : State), s.mem.wf → s.status = .running → s.hold = none →
    s.pc ≠ s.params.kbsrAddr → s.pc ≠ s.params.kbdrAddr → exec (.st sr 0#9) s = .next t →
    step t = exec (decode (s.getReg sr))
      { t with ir := s.getReg sr, pc := s.pc + 1, icount := s.icount + 1 }

/-! ### Control flow -/

/-- BR: it branches to PC* plus the signed offset exactly when the mask bit of the flag that is set is 1, and changes nothing
else (mask order n:z:p: decision D3, log 16). -/
def Obligations.BranchFollowsTheMask : Prop :=
  ∀ (n z p : Bool) (off : BitVec 9) (s : State),
    ((n = true ∧ s.cond = .neg) ∨ (z = true ∧ s.cond = .zero) ∨ (p = true ∧ s.cond = .pos) →
      exec (.br n z p off) s = .next { s with pc := BitVec.ofInt 16 (s.pc.toInt + off.toInt) }) ∧
    ((n = false ∧ s.cond = .neg) ∨ (z = false ∧ s.cond = .zero) ∨ (p = false ∧ s.cond = .pos) →
      exec (.br n z p off) s = .next s)

/-- JMP goes to BaseR and RET to R7; nothing else changes. -/
def Obligations.JumpsGoToTheRegister : Prop :=
  ∀ s : State, (∀ base : Reg, exec (.jmp base) s = .next { s with pc := s.getReg base }) ∧
    exec .ret s = .next { s with pc := s.getReg 7 }

/-- JSR: R7 gets PC*, `pc` gets PC* plus the signed 11-bit offset; `cond` and all else stay. -/
def Obligations.JsrLinksAndJumps : Prop :=
  ∀ (off : BitVec 11) (s : State), ∃ t, exec (.jsr off) s = .next t ∧
    (∀ r, t.getReg r = if r = 7 then s.pc else s.getReg r) ∧
    t = { s with regs := t.regs, pc := BitVec.ofInt 16 (s.pc.toInt + off.toInt) }

/-- JSRR: R7 gets PC* and `pc` gets BaseR, which for BaseR = R7 is PC* under JSRR_LINK_FIRST and the old R7 without it
(decision D14; log 7). -/
def Obligations.JsrrLinksAndJumpsThroughTheRegister : Prop :=
  ∀ (base : Reg) (s : State), ∃ t, exec (.jsrr base) s = .next t ∧
    (∀ r, t.getReg r = if r = 7 then s.pc else s.getReg r) ∧
    t = { s with regs := t.regs, pc := t.pc } ∧
    (base ≠ 7 → t.pc = s.getReg base) ∧
    (base = 7 → s.params.jsrrLinkFirst = true → t.pc = s.pc) ∧
    (base = 7 → s.params.jsrrLinkFirst = false → t.pc = s.getReg 7)

/-! ### Faults -/

/-- Opcodes 0x8 and 0xD: the CORE enters FAULTED with the record of the word, and nothing else changes (R83, R141; that `pc`
in the record is PC*: decision D12; that the RTI slot is 0x8: log 16). -/
def Obligations.ReservedOpcodesFault : Prop :=
  ∀ (w : Word) (s : State), s.ir = w →
    (w.extractLsb' 12 4 = 0x8#4 →
      decode w = .reserved8 ∧ exec .reserved8 s = .next { s with
        status := .faulted,
        fault := some { kind := .reservedOpcode, word := w, opcode := 0x8#4, vector := none, pc := s.pc } }) ∧
    (w.extractLsb' 12 4 = 0xD#4 →
      decode w = .reservedD ∧ exec .reservedD s = .next { s with
        status := .faulted,
        fault := some { kind := .reservedOpcode, word := w, opcode := 0xD#4, vector := none, pc := s.pc } })

/-- A TRAP word whose vector is outside 0x20..0x25 faults with the vector in the record; no register, flag or memory cell changes
(R133; the record's fields: decision D13, and that its `pc` is PC*: decision D12, log 13). -/
def Obligations.UnknownTrapVectorsFault : Prop :=
  ∀ (w : Word) (v : Byte) (s : State), w.extractLsb' 12 4 = 0xF#4 → v = w.extractLsb' 0 8 →
    v.toNat < 0x20 ∨ 0x25 < v.toNat → s.ir = w →
    decode w = .trapUnknown v ∧ exec (.trapUnknown v) s = .next { s with
      status := .faulted,
      fault := some { kind := .unknownTrapVector, word := w, opcode := 0xF#4, vector := some v, pc := s.pc } }

/-- Fault entry records the fault and ends in FAULTED; "The CORE saves nothing else, changes no mode and jumps nowhere" (R141).
That the record's word is IR and its `pc` PC*, and its fields, are R27 with decisions D12 and D13 (log 13); that no step follows
is R80 and R143. -/
def Obligations.FaultEntryWritesOnlyTheRecordAndStatus : Prop :=
  ∀ (s : State) (k : FaultKind) (o : BitVec 4) (v : Option Byte),
    s.raiseFault k o v = { s with
      status := .faulted, fault := some { kind := k, word := s.ir, opcode := o, vector := v, pc := s.pc } } ∧
    (∀ t, step (s.raiseFault k o v) ≠ .next t)

/-! ### TRAP -/

/-- R125: the vector IR[7:0] alone selects the routine; any other vector raises UnknownTrapVector (the record's fields: decision
D13, and that its `pc` is PC*: decision D12, log 13). -/
def Obligations.TrapDispatchesOnTheVector : Prop :=
  ∀ (w : Word) (v : Byte), w.extractLsb' 12 4 = 0xF#4 → v = w.extractLsb' 0 8 →
    (v = 0x20#8 → decode w = .trapGetc) ∧ (v = 0x21#8 → decode w = .trapOut) ∧ (v = 0x22#8 → decode w = .trapPuts) ∧
    (v = 0x23#8 → decode w = .trapIn) ∧ (v = 0x24#8 → decode w = .trapPutsp) ∧ (v = 0x25#8 → decode w = .trapHalt) ∧
    (v ∉ [0x20#8, 0x21#8, 0x22#8, 0x23#8, 0x24#8, 0x25#8] → decode w = .trapUnknown v ∧
      ∀ s : State, s.ir = w → exec (.trapUnknown v) s = .next { s with
        status := .faulted,
        fault := some { kind := .unknownTrapVector, word := w, opcode := 0xF#4, vector := some v, pc := s.pc } })

/-- R126: no trap vector writes R7 or any register but the R0 of GETC and IN, nor `cond`, `pc` or memory. -/
def Obligations.TrapsLeaveTheRestAlone : Prop :=
  ∀ (i : Instr) (s t : State), isTrap i = true → exec i s = .next t →
    (∀ r : Reg, r ≠ 0 → t.getReg r = s.getReg r) ∧
    (i ≠ .trapGetc → i ≠ .trapIn → t.getReg 0 = s.getReg 0) ∧
    t.cond = s.cond ∧ t.pc = s.pc ∧ t.mem = s.mem

/-- From the word to its effect: GETC puts the next character, zero-extended, into R0, with no echo and no flag (R127); with no
input it holds and R0 is as it was (R85; a hold is a next state with `hold` set: the model's choice, log 10). -/
def Obligations.GetcReadsOneCharacter : Prop :=
  ∀ (w : Word) (s : State), w.extractLsb' 12 4 = 0xF#4 → w.extractLsb' 0 8 = 0x20#8 →
    decode w = .trapGetc ∧
    (∀ b s', s.readsByte b s' → ∃ t, exec .trapGetc s = .next t ∧ s'.wroteReg t 0 (BitVec.ofNat 16 b.toNat)) ∧
    (∀ s', s.byteHolds s' → exec .trapGetc s = .next { s' with hold := some .getc })

/-- OUT writes exactly one byte, bits 7:0 of R0 (decision D16), and changes no register or flag. -/
def Obligations.OutWritesOneCharacter : Prop :=
  ∀ s : State, ∃ t, exec .trapOut s = .next t ∧ s.wroteOut t [BitVec.ofNat 8 ((s.getReg 0).toNat % 256)]

/-- IN writes the prompt, whatever it is (decision D18; log 5), reads one character, echoes it and puts it, zero-extended, into
R0; with no input it holds with the prompt written (R85; a hold is a next state with `hold` set: the model's choice, log 10). -/
def Obligations.InPromptsReadsAndEchoes : Prop :=
  ∀ s s1 : State, s.wroteOut s1 s.params.inPrompt →
    (∀ b s2, s1.readsByte b s2 → ∃ t u, exec .trapIn s = .next t ∧ s2.wroteOut u [b] ∧
      u.wroteReg t 0 (BitVec.ofNat 16 b.toNat)) ∧
    (∀ s2, s1.byteHolds s2 → exec .trapIn s = .next { s2 with hold := some .inRead })

/-- HALT only sets `status`, and no step follows (that it writes nothing to the console: decision D19). -/
def Obligations.HaltEndsTheRun : Prop :=
  ∀ s : State, ∃ t, exec .trapHalt s = .next t ∧ t = { s with status := .halted } ∧ (∀ u, step t ≠ .next u)

/-- PUTS over plain cells writes bits 7:0 of each cell from R0 up to the first zero cell, in order, wrapping at the end of the
space, and changes nothing else (bits 7:0: decision D16). -/
def Obligations.PutsWritesTheString : Prop :=
  ∀ (s : State) (ws : List Word),
    (∀ k (h : k < ws.length), s.mem.read (s.getReg 0 + BitVec.ofNat 16 k).addr = ws[k] ∧ ws[k] ≠ 0x0000#16) →
    s.mem.read (s.getReg 0 + BitVec.ofNat 16 ws.length).addr = 0x0000#16 →
    (∀ k, k ≤ ws.length → s.getReg 0 + BitVec.ofNat 16 k ≠ s.params.kbsrAddr ∧
      s.getReg 0 + BitVec.ofNat 16 k ≠ s.params.kbdrAddr) →
    ∃ t, exec .trapPuts s = .next t ∧ s.wroteOut t (ws.map (fun w => BitVec.ofNat 8 w.toNat))

/-- PUTSP over plain cells writes the low then the high character of each cell from R0 up to the first zero byte, and reads
no further cell. -/
def Obligations.PutspWritesThePackedString : Prop :=
  ∀ (s : State) (ws : List Word) (last : Word),
    (∀ k (h : k < ws.length), s.mem.read (s.getReg 0 + BitVec.ofNat 16 k).addr = ws[k] ∧
      ws[k].toNat % 256 ≠ 0 ∧ ws[k].toNat / 256 ≠ 0) →
    s.mem.read (s.getReg 0 + BitVec.ofNat 16 ws.length).addr = last →
    (∀ k, k ≤ ws.length → s.getReg 0 + BitVec.ofNat 16 k ≠ s.params.kbsrAddr ∧
      s.getReg 0 + BitVec.ofNat 16 k ≠ s.params.kbdrAddr) →
    let full := ws.flatMap (fun w => [BitVec.ofNat 8 (w.toNat % 256), BitVec.ofNat 8 (w.toNat / 256)])
    (last.toNat % 256 = 0 → ∃ t, exec .trapPutsp s = .next t ∧ s.wroteOut t full) ∧
    (last.toNat % 256 ≠ 0 → last.toNat / 256 = 0 →
      ∃ t, exec .trapPutsp s = .next t ∧ s.wroteOut t (full ++ [BitVec.ofNat 8 last.toNat]))

/-- PUTS is its loop, wherever it reads: it passes the cells that are not 0, each through MemRead (decision D8, log 19; bits 7:0:
D16; KBSR's word: D6), ends at the first that is, and holds at KBDR with no input (D7, log 19; `hold`: log 10). After a whole
round with no end it is marked unfinished and the next step goes on (the model's choice, log 11). -/
def Obligations.PutsFollowsItsLoop : Prop :=
  (∀ s : State, exec .trapPuts s = putsFrom (s.getReg 0) s) ∧
  (∀ (s t : State) (a : Word) (n : Nat), s.putsPasses n a t →
    (∀ s', n < 65536 → t.reads (a + BitVec.ofNat 16 n) 0x0000#16 s' → putsFrom a s = .next s') ∧
    (∀ s', n < 65536 → t.readHolds (a + BitVec.ofNat 16 n) s' →
      putsFrom a s = .next { s' with hold := some (.puts (a + BitVec.ofNat 16 n)) }) ∧
    (n = 65536 → putsFrom a s = .next { t with hold := some (.putsRound a) })) ∧
  (∀ (s : State) (a : Word), s.status = .running → s.hold = some (.putsRound a) →
    step s = putsFrom a { s with hold := none })

/-- PUTSP is its loop, wherever it reads: it passes the cells with no zero character, each through MemRead (decision D8, log 19),
ends at the first zero character, and holds at KBDR with no input (D7, log 19; `hold`: log 10). It always ends or holds within
one round, since KBSR's word (D6) has a zero character (log 11). -/
def Obligations.PutspFollowsItsLoop : Prop :=
  (∀ s : State, exec .trapPutsp s = putspFrom (s.getReg 0) s) ∧
  (∀ (s t : State) (a : Word) (n : Nat), s.putspPasses n a t → n < 65536 →
    (∀ w s', t.reads (a + BitVec.ofNat 16 n) w s' → w.toNat % 256 = 0 → putspFrom a s = .next s') ∧
    (∀ w s' u, t.reads (a + BitVec.ofNat 16 n) w s' → w.toNat % 256 ≠ 0 → w.toNat / 256 = 0 →
      s'.wroteOut u [BitVec.ofNat 8 w.toNat] → putspFrom a s = .next u) ∧
    (∀ s', t.readHolds (a + BitVec.ofNat 16 n) s' →
      putspFrom a s = .next { s' with hold := some (.putsp (a + BitVec.ofNat 16 n)) })) ∧
  (∀ (s : State) (a : Word), ∃ t, putspFrom a s = .next t ∧
    (t.hold = s.hold ∨ t.hold = some (.putsp s.params.kbdrAddr)))

/-- "A string with no zero cell, that never reaches a mapped address reading 0, does not end: the step never finishes" (R129). With
no zero in a plain cell and a host that never lets the input run dry, PUTS is not finished after its first model step, nor after
any number of further ones; each writes 65,536 characters and fetches nothing (a model step for each round: log 11; the host's
script: log 9; D6 to D8, D16: log 19). -/
def Obligations.UnterminatedPutsNeverFinishes : Prop :=
  ∀ s : State, s.params.kbsrAddr ≠ s.params.kbdrAddr → s.unterminated → s.console.neverRunsDry →
    (∃ t, exec .trapPuts s = .next t ∧ t = { s with console := t.console, hold := some (.putsRound (s.getReg 0)) } ∧
      t.console.neverRunsDry ∧ t.console.out.length = s.console.out.length + 65536) ∧
    (∀ (a : Word) (n : Nat), s.status = .running → s.hold = some (.putsRound a) →
      ∃ t : State, Sys2Proof.core.run n s = .next t ∧ t = { s with console := t.console } ∧
        t.console.out.length = s.console.out.length + 65536 * n)

/-! ### The hold on console input -/

/-- A step that waits for input and gets none goes on waiting and changes nothing but the host's script (R85; that each further
model step tries once more is the model's choice, log 10; a scan between two rounds waits for nothing, log 11). -/
def Obligations.HeldStepWaitsForInput : Prop :=
  ∀ (s s' : State) (h : Hold), s.status = .running → s.hold = some h → s.byteHolds s' →
    (∀ a, h ≠ .putsRound a ∧ h ≠ .putspRound a) → step s = .next s'

/-- R85: "The step then finishes with that byte", for each of the places where a step can wait for input (in a model step of its
own: the model's choice, log 10; the reads a pointer makes: decisions D6 to D8, log 19; PUTS's low byte: D16). -/
def Obligations.HeldStepFinishesWithItsByte : Prop :=
  ∀ (s s1 : State) (h : Hold) (b : Byte) (v : Word), s.status = .running → s.hold = some h →
    { s with hold := none }.readsByte b s1 → v = BitVec.ofNat 16 b.toNat →
    (h = .fetch → step s = exec (decode v) { s1 with ir := v, pc := s.pc + 1, icount := s.icount + 1 }) ∧
    (∀ dr, h = .load dr → ∃ t, step s = .next t ∧ s1.wroteResult t dr v) ∧
    (∀ dr w s2, h = .loadPointer dr → s1.reads v w s2 → ∃ t, step s = .next t ∧ s2.wroteResult t dr w) ∧
    (∀ dr s2, h = .loadPointer dr → s1.readHolds v s2 → step s = .next { s2 with hold := some (.load dr) }) ∧
    (∀ sr, h = .storePointer sr → s.mem.wf → ∃ t, step s = .next t ∧ s1.wroteCell t v (s.getReg sr)) ∧
    (h = .getc → ∃ t, step s = .next t ∧ s1.wroteReg t 0 v) ∧
    (h = .inRead → ∃ t u, step s = .next t ∧ s1.wroteOut u [b] ∧ u.wroteReg t 0 v) ∧
    (∀ a, h = .puts a → b = 0x00#8 → step s = .next s1) ∧
    (∀ a u, h = .puts a → b ≠ 0x00#8 → s1.wroteOut u [b] → step s = putsFrom (a + 1) u) ∧
    (∀ a, h = .putsp a → b = 0x00#8 → step s = .next s1) ∧
    (∀ a u, h = .putsp a → b ≠ 0x00#8 → s1.wroteOut u [b] → step s = .next u)

/-! ### Rules of the whole machine -/

/-- An instruction changes no general register but its destination (R21). -/
def Obligations.OnlyTheDestinationRegisterChanges : Prop :=
  ∀ (i : Instr) (s t : State), exec i s = .next t → ∀ r, destination i ≠ some r → t.getReg r = s.getReg r

/-- `cond` is written only by ADD, AND, NOT, LD, LDI, LDR and LEA (R23, C2). -/
def Obligations.OnlyResultWritesChangeCond : Prop :=
  ∀ (i : Instr) (s t : State), setsCond i = false → exec i s = .next t → t.cond = s.cond

/-- "BR is the only reader of cond" (R23): any other instruction does the same whatever `cond` is, and leaves `cond` at what
its own result sets or as it was. -/
def Obligations.OnlyBranchReadsCond : Prop :=
  ∀ (i : Instr) (s t : State) (c : Cond), (∀ n z p off, i ≠ .br n z p off) → exec i s = .next t →
    ∃ c', exec i { s with cond := c } = .next { t with cond := c' } ∧ (c' = t.cond ∨ (c' = c ∧ t.cond = s.cond))

/-- `pc` is written only by BR, JMP, RET, JSR and JSRR (R25). -/
def Obligations.OnlyControlFlowWritesPc : Prop :=
  ∀ (i : Instr) (s t : State), writesPc i = false → exec i s = .next t → t.pc = s.pc

/-- Memory is changed only by ST, STI and STR (R47). -/
def Obligations.OnlyStoresChangeMemory : Prop :=
  ∀ (i : Instr) (s t : State), storesCell i = false → exec i s = .next t → t.mem = s.mem

/-- Console output comes only from OUT, PUTS, IN and PUTSP (R34), and is only ever appended to (R59). -/
def Obligations.OutputIsAppendedByFourTraps : Prop :=
  ∀ (i : Instr) (s t : State), exec i s = .next t →
    (∃ bs, t.console.out = s.console.out ++ bs) ∧ (writesConsole i = false → t.console.out = s.console.out)

/-- R26: RUNNING goes to HALTED only by TRAP HALT and to FAULTED only by a fault, and neither is left. -/
def Obligations.OnlyHaltAndFaultsEndARun : Prop :=
  (∀ s t : State, step s = .next t →
    s.status = .running ∧ (t.status = .halted → decode t.ir = .trapHalt) ∧
    (t.status = .faulted → raisesFault (decode t.ir) = true)) ∧
  (∀ s : State, s.status ≠ .running → ∀ t, step s ≠ .next t) ∧
  State.reset.status = .running

/-- No step changes a parameter the machine was launched with (R7). -/
def Obligations.ParametersNeverChange : Prop :=
  ∀ s t : State, step s = .next t → t.params = s.params

/-- Bytes are consumed from the front of what is pending, what arrives comes behind, and the rest stays in its order (R13, R59; the
script: log 9). An instruction consumes no more bytes than it makes console reads, so none unless it is GETC, IN or reads KBDR. -/
def Obligations.InputIsConsumedInOrder : Prop :=
  (∀ s t : State, step s = .next t → ∃ used, s.consumed t used) ∧
  (∀ (i : Instr) (s t : State), exec i s = .next t → ∃ used, s.consumed t used ∧ used.length ≤ consoleReads i s)

/-- The count goes up by one with each word fetched, and stays while the fetch holds or an instruction is resumed (R30,
decision D21; `hold`: logs 10, 11). -/
def Obligations.CountGrowsOncePerFetch : Prop :=
  ∀ s t : State, step s = .next t →
    t.icount = s.icount + (if (s.hold = none ∨ s.hold = some .fetch) ∧ t.hold ≠ some .fetch then 1 else 0)

/-- "No program can read it" (R30): an instruction does the same whatever the count is. -/
def Obligations.NoInstructionReadsTheCount : Prop :=
  ∀ (i : Instr) (s : State) (n : Nat),
    exec i { s with icount := n } = mapNext (fun t => { t with icount := n }) (exec i s)

/-- "the stored contents of the two cells, a loaded image word included, can never be seen" (R44, derived there): two
states that differ in nothing else answer alike, step by step. -/
def Obligations.MappedCellsAreNeverSeen : Prop :=
  ∀ s t : State, s.mem.wf → t.mem.wf → s.sameButMappedCells t → answersAlike (step s) (step t)

/-! ### The host port -/

/-- Launching loads the image words from the origin up, modulo 2^16, leaves every other cell 0 and starts at the origin (R37,
R160, R162; the zeros: decision D11; the wrap: decision D24), with the console collaborator the host supplies (R35; its form: the
model's choice, log 9) and the parameters. -/
def Obligations.LaunchLoadsTheImage : Prop :=
  ∀ (p : Params) (c : Console) (origin : Word) (words : List Word), words.length ≤ 65536 →
    let s := State.launch p c origin words
    (∀ k (h : k < words.length), s.mem.read (origin + BitVec.ofNat 16 k).addr = words[k]) ∧
    (∀ a : Word, (∀ k, k < words.length → a ≠ origin + BitVec.ofNat 16 k) → s.mem.read a.addr = 0x0000#16) ∧
    s = { State.reset with mem := s.mem, pc := origin, console := c, params := p } ∧ s.mem.wf

/-- The word the host places is the one the next step fetches and runs, whatever the state (log 17). -/
def Obligations.PlacedWordIsTheNextInstruction : Prop :=
  ∀ (s : State) (w : Word), s.mem.wf → s.pc ≠ s.params.kbsrAddr → s.pc ≠ s.params.kbdrAddr →
    ∃ u, s.wroteCell u s.pc w ∧ step (s.withFetchWord 16 w.toNat) = exec (decode w) { u with
      status := .running, hold := none, ir := w, pc := s.pc + 1, icount := s.icount + 1 }
end

