-- ==== Sys2Proof/Laws/State.lean ====
section
/-! SUPPORT. For every named update of State, what each field is after it. -/

namespace Sys2Proof.Machine

variable (s : State)

/-! ### setReg -/

@[simp] theorem State.setReg_regs (r : Reg) (v : Word) : (s.setReg r v).regs = s.regs.set r v := rfl
@[simp] theorem State.setReg_pc (r : Reg) (v : Word) : (s.setReg r v).pc = s.pc := rfl
@[simp] theorem State.setReg_cond (r : Reg) (v : Word) : (s.setReg r v).cond = s.cond := rfl
@[simp] theorem State.setReg_status (r : Reg) (v : Word) : (s.setReg r v).status = s.status := rfl
@[simp] theorem State.setReg_fault (r : Reg) (v : Word) : (s.setReg r v).fault = s.fault := rfl
@[simp] theorem State.setReg_ir (r : Reg) (v : Word) : (s.setReg r v).ir = s.ir := rfl
@[simp] theorem State.setReg_icount (r : Reg) (v : Word) : (s.setReg r v).icount = s.icount := rfl
@[simp] theorem State.setReg_mem (r : Reg) (v : Word) : (s.setReg r v).mem = s.mem := rfl
@[simp] theorem State.setReg_hold (r : Reg) (v : Word) : (s.setReg r v).hold = s.hold := rfl
@[simp] theorem State.setReg_console (r : Reg) (v : Word) : (s.setReg r v).console = s.console := rfl
@[simp] theorem State.setReg_params (r : Reg) (v : Word) : (s.setReg r v).params = s.params := rfl

/-! ### setcc -/

@[simp] theorem State.setcc_regs (v : Word) : (s.setcc v).regs = s.regs := rfl
@[simp] theorem State.setcc_pc (v : Word) : (s.setcc v).pc = s.pc := rfl
@[simp] theorem State.setcc_cond (v : Word) : (s.setcc v).cond = condOf v := rfl
@[simp] theorem State.setcc_status (v : Word) : (s.setcc v).status = s.status := rfl
@[simp] theorem State.setcc_fault (v : Word) : (s.setcc v).fault = s.fault := rfl
@[simp] theorem State.setcc_ir (v : Word) : (s.setcc v).ir = s.ir := rfl
@[simp] theorem State.setcc_icount (v : Word) : (s.setcc v).icount = s.icount := rfl
@[simp] theorem State.setcc_mem (v : Word) : (s.setcc v).mem = s.mem := rfl
@[simp] theorem State.setcc_hold (v : Word) : (s.setcc v).hold = s.hold := rfl
@[simp] theorem State.setcc_console (v : Word) : (s.setcc v).console = s.console := rfl
@[simp] theorem State.setcc_params (v : Word) : (s.setcc v).params = s.params := rfl

/-! ### jumpTo -/

@[simp] theorem State.jumpTo_regs (target : Word) : (s.jumpTo target).regs = s.regs := rfl
@[simp] theorem State.jumpTo_pc (target : Word) : (s.jumpTo target).pc = target := rfl
@[simp] theorem State.jumpTo_cond (target : Word) : (s.jumpTo target).cond = s.cond := rfl
@[simp] theorem State.jumpTo_status (target : Word) : (s.jumpTo target).status = s.status := rfl
@[simp] theorem State.jumpTo_fault (target : Word) : (s.jumpTo target).fault = s.fault := rfl
@[simp] theorem State.jumpTo_ir (target : Word) : (s.jumpTo target).ir = s.ir := rfl
@[simp] theorem State.jumpTo_icount (target : Word) : (s.jumpTo target).icount = s.icount := rfl
@[simp] theorem State.jumpTo_mem (target : Word) : (s.jumpTo target).mem = s.mem := rfl
@[simp] theorem State.jumpTo_hold (target : Word) : (s.jumpTo target).hold = s.hold := rfl
@[simp] theorem State.jumpTo_console (target : Word) : (s.jumpTo target).console = s.console := rfl
@[simp] theorem State.jumpTo_params (target : Word) : (s.jumpTo target).params = s.params := rfl

/-! ### link -/

@[simp] theorem State.link_regs : s.link.regs = s.regs.set linkReg s.pc := rfl
@[simp] theorem State.link_pc : s.link.pc = s.pc := rfl
@[simp] theorem State.link_cond : s.link.cond = s.cond := rfl
@[simp] theorem State.link_status : s.link.status = s.status := rfl
@[simp] theorem State.link_fault : s.link.fault = s.fault := rfl
@[simp] theorem State.link_ir : s.link.ir = s.ir := rfl
@[simp] theorem State.link_icount : s.link.icount = s.icount := rfl
@[simp] theorem State.link_mem : s.link.mem = s.mem := rfl
@[simp] theorem State.link_hold : s.link.hold = s.hold := rfl
@[simp] theorem State.link_console : s.link.console = s.console := rfl
@[simp] theorem State.link_params : s.link.params = s.params := rfl

/-! ### halt -/

@[simp] theorem State.halt_regs : s.halt.regs = s.regs := rfl
@[simp] theorem State.halt_pc : s.halt.pc = s.pc := rfl
@[simp] theorem State.halt_cond : s.halt.cond = s.cond := rfl
@[simp] theorem State.halt_status : s.halt.status = .halted := rfl
@[simp] theorem State.halt_fault : s.halt.fault = s.fault := rfl
@[simp] theorem State.halt_ir : s.halt.ir = s.ir := rfl
@[simp] theorem State.halt_icount : s.halt.icount = s.icount := rfl
@[simp] theorem State.halt_mem : s.halt.mem = s.mem := rfl
@[simp] theorem State.halt_hold : s.halt.hold = s.hold := rfl
@[simp] theorem State.halt_console : s.halt.console = s.console := rfl
@[simp] theorem State.halt_params : s.halt.params = s.params := rfl

/-! ### raiseFault -/

@[simp] theorem State.raiseFault_regs (k : FaultKind) (o : BitVec 4) (v : Option Byte) : (s.raiseFault k o v).regs = s.regs := rfl
@[simp] theorem State.raiseFault_pc (k : FaultKind) (o : BitVec 4) (v : Option Byte) : (s.raiseFault k o v).pc = s.pc := rfl
@[simp] theorem State.raiseFault_cond (k : FaultKind) (o : BitVec 4) (v : Option Byte) : (s.raiseFault k o v).cond = s.cond := rfl
@[simp] theorem State.raiseFault_status (k : FaultKind) (o : BitVec 4) (v : Option Byte) : (s.raiseFault k o v).status = .faulted := rfl
@[simp] theorem State.raiseFault_fault (k : FaultKind) (o : BitVec 4) (v : Option Byte) : (s.raiseFault k o v).fault = some { kind := k, word := s.ir, opcode := o, vector := v, pc := s.pc } := rfl
@[simp] theorem State.raiseFault_ir (k : FaultKind) (o : BitVec 4) (v : Option Byte) : (s.raiseFault k o v).ir = s.ir := rfl
@[simp] theorem State.raiseFault_icount (k : FaultKind) (o : BitVec 4) (v : Option Byte) : (s.raiseFault k o v).icount = s.icount := rfl
@[simp] theorem State.raiseFault_mem (k : FaultKind) (o : BitVec 4) (v : Option Byte) : (s.raiseFault k o v).mem = s.mem := rfl
@[simp] theorem State.raiseFault_hold (k : FaultKind) (o : BitVec 4) (v : Option Byte) : (s.raiseFault k o v).hold = s.hold := rfl
@[simp] theorem State.raiseFault_console (k : FaultKind) (o : BitVec 4) (v : Option Byte) : (s.raiseFault k o v).console = s.console := rfl
@[simp] theorem State.raiseFault_params (k : FaultKind) (o : BitVec 4) (v : Option Byte) : (s.raiseFault k o v).params = s.params := rfl

/-! ### reservedFault -/

@[simp] theorem State.reservedFault_regs : s.reservedFault.regs = s.regs := rfl
@[simp] theorem State.reservedFault_pc : s.reservedFault.pc = s.pc := rfl
@[simp] theorem State.reservedFault_cond : s.reservedFault.cond = s.cond := rfl
@[simp] theorem State.reservedFault_status : s.reservedFault.status = .faulted := rfl
@[simp] theorem State.reservedFault_fault : s.reservedFault.fault = some { kind := .reservedOpcode, word := s.ir, opcode := s.ir.extractLsb' 12 4, vector := none, pc := s.pc } := rfl
@[simp] theorem State.reservedFault_ir : s.reservedFault.ir = s.ir := rfl
@[simp] theorem State.reservedFault_icount : s.reservedFault.icount = s.icount := rfl
@[simp] theorem State.reservedFault_mem : s.reservedFault.mem = s.mem := rfl
@[simp] theorem State.reservedFault_hold : s.reservedFault.hold = s.hold := rfl
@[simp] theorem State.reservedFault_console : s.reservedFault.console = s.console := rfl
@[simp] theorem State.reservedFault_params : s.reservedFault.params = s.params := rfl

/-! ### consoleWrite -/

@[simp] theorem State.consoleWrite_regs (b : Byte) : (s.consoleWrite b).regs = s.regs := rfl
@[simp] theorem State.consoleWrite_pc (b : Byte) : (s.consoleWrite b).pc = s.pc := rfl
@[simp] theorem State.consoleWrite_cond (b : Byte) : (s.consoleWrite b).cond = s.cond := rfl
@[simp] theorem State.consoleWrite_status (b : Byte) : (s.consoleWrite b).status = s.status := rfl
@[simp] theorem State.consoleWrite_fault (b : Byte) : (s.consoleWrite b).fault = s.fault := rfl
@[simp] theorem State.consoleWrite_ir (b : Byte) : (s.consoleWrite b).ir = s.ir := rfl
@[simp] theorem State.consoleWrite_icount (b : Byte) : (s.consoleWrite b).icount = s.icount := rfl
@[simp] theorem State.consoleWrite_mem (b : Byte) : (s.consoleWrite b).mem = s.mem := rfl
@[simp] theorem State.consoleWrite_hold (b : Byte) : (s.consoleWrite b).hold = s.hold := rfl
@[simp] theorem State.consoleWrite_console (b : Byte) : (s.consoleWrite b).console = { s.console with out := s.console.out ++ [b] } := rfl
@[simp] theorem State.consoleWrite_params (b : Byte) : (s.consoleWrite b).params = s.params := rfl

/-! ### consoleWriteAll -/

@[simp] theorem State.consoleWriteAll_regs (bs : List Byte) : (s.consoleWriteAll bs).regs = s.regs := rfl
@[simp] theorem State.consoleWriteAll_pc (bs : List Byte) : (s.consoleWriteAll bs).pc = s.pc := rfl
@[simp] theorem State.consoleWriteAll_cond (bs : List Byte) : (s.consoleWriteAll bs).cond = s.cond := rfl
@[simp] theorem State.consoleWriteAll_status (bs : List Byte) : (s.consoleWriteAll bs).status = s.status := rfl
@[simp] theorem State.consoleWriteAll_fault (bs : List Byte) : (s.consoleWriteAll bs).fault = s.fault := rfl
@[simp] theorem State.consoleWriteAll_ir (bs : List Byte) : (s.consoleWriteAll bs).ir = s.ir := rfl
@[simp] theorem State.consoleWriteAll_icount (bs : List Byte) : (s.consoleWriteAll bs).icount = s.icount := rfl
@[simp] theorem State.consoleWriteAll_mem (bs : List Byte) : (s.consoleWriteAll bs).mem = s.mem := rfl
@[simp] theorem State.consoleWriteAll_hold (bs : List Byte) : (s.consoleWriteAll bs).hold = s.hold := rfl
@[simp] theorem State.consoleWriteAll_console (bs : List Byte) : (s.consoleWriteAll bs).console = { s.console with out := s.console.out ++ bs } := rfl
@[simp] theorem State.consoleWriteAll_params (bs : List Byte) : (s.consoleWriteAll bs).params = s.params := rfl

/-! ### fetched -/

@[simp] theorem State.fetched_regs (w : Word) : (s.fetched w).regs = s.regs := rfl
@[simp] theorem State.fetched_pc (w : Word) : (s.fetched w).pc = s.pc + 1 := rfl
@[simp] theorem State.fetched_cond (w : Word) : (s.fetched w).cond = s.cond := rfl
@[simp] theorem State.fetched_status (w : Word) : (s.fetched w).status = s.status := rfl
@[simp] theorem State.fetched_fault (w : Word) : (s.fetched w).fault = s.fault := rfl
@[simp] theorem State.fetched_ir (w : Word) : (s.fetched w).ir = w := rfl
@[simp] theorem State.fetched_icount (w : Word) : (s.fetched w).icount = s.icount + 1 := rfl
@[simp] theorem State.fetched_mem (w : Word) : (s.fetched w).mem = s.mem := rfl
@[simp] theorem State.fetched_hold (w : Word) : (s.fetched w).hold = s.hold := rfl
@[simp] theorem State.fetched_console (w : Word) : (s.fetched w).console = s.console := rfl
@[simp] theorem State.fetched_params (w : Word) : (s.fetched w).params = s.params := rfl

/-! ### supplyInput -/

@[simp] theorem State.supplyInput_regs (bs : List Byte) : (s.supplyInput bs).regs = s.regs := rfl
@[simp] theorem State.supplyInput_pc (bs : List Byte) : (s.supplyInput bs).pc = s.pc := rfl
@[simp] theorem State.supplyInput_cond (bs : List Byte) : (s.supplyInput bs).cond = s.cond := rfl
@[simp] theorem State.supplyInput_status (bs : List Byte) : (s.supplyInput bs).status = s.status := rfl
@[simp] theorem State.supplyInput_fault (bs : List Byte) : (s.supplyInput bs).fault = s.fault := rfl
@[simp] theorem State.supplyInput_ir (bs : List Byte) : (s.supplyInput bs).ir = s.ir := rfl
@[simp] theorem State.supplyInput_icount (bs : List Byte) : (s.supplyInput bs).icount = s.icount := rfl
@[simp] theorem State.supplyInput_mem (bs : List Byte) : (s.supplyInput bs).mem = s.mem := rfl
@[simp] theorem State.supplyInput_hold (bs : List Byte) : (s.supplyInput bs).hold = s.hold := rfl
@[simp] theorem State.supplyInput_console (bs : List Byte) : (s.supplyInput bs).console = { s.console with pending := s.console.pending ++ bs } := rfl
@[simp] theorem State.supplyInput_params (bs : List Byte) : (s.supplyInput bs).params = s.params := rfl

/-! ### scheduleInput -/

@[simp] theorem State.scheduleInput_regs (as rs : List (List Byte)) : (s.scheduleInput as rs).regs = s.regs := rfl
@[simp] theorem State.scheduleInput_pc (as rs : List (List Byte)) : (s.scheduleInput as rs).pc = s.pc := rfl
@[simp] theorem State.scheduleInput_cond (as rs : List (List Byte)) : (s.scheduleInput as rs).cond = s.cond := rfl
@[simp] theorem State.scheduleInput_status (as rs : List (List Byte)) : (s.scheduleInput as rs).status = s.status := rfl
@[simp] theorem State.scheduleInput_fault (as rs : List (List Byte)) : (s.scheduleInput as rs).fault = s.fault := rfl
@[simp] theorem State.scheduleInput_ir (as rs : List (List Byte)) : (s.scheduleInput as rs).ir = s.ir := rfl
@[simp] theorem State.scheduleInput_icount (as rs : List (List Byte)) : (s.scheduleInput as rs).icount = s.icount := rfl
@[simp] theorem State.scheduleInput_mem (as rs : List (List Byte)) : (s.scheduleInput as rs).mem = s.mem := rfl
@[simp] theorem State.scheduleInput_hold (as rs : List (List Byte)) : (s.scheduleInput as rs).hold = s.hold := rfl
@[simp] theorem State.scheduleInput_console (as rs : List (List Byte)) : (s.scheduleInput as rs).console = { s.console with arrivals := as, recurring := rs } := rfl
@[simp] theorem State.scheduleInput_params (as rs : List (List Byte)) : (s.scheduleInput as rs).params = s.params := rfl

/-! ### Reading a register after an update -/

@[simp] theorem State.getReg_setReg_same (r : Reg) (v : Word) : (s.setReg r v).getReg r = v := by
  simp [State.getReg, State.setReg]

theorem State.getReg_setReg_other (r q : Reg) (v : Word) (h : q ≠ r) : (s.setReg r v).getReg q = s.getReg q := by
  have : (r : Nat) ≠ q := fun e => h (Fin.ext e.symm)
  simp [State.getReg, State.setReg, this]

theorem State.getReg_setReg (r q : Reg) (v : Word) : (s.setReg r v).getReg q = if q = r then v else s.getReg q := by
  by_cases h : q = r
  · subst h; simp
  · rw [if_neg h, State.getReg_setReg_other s r q v h]

theorem State.getReg_congr {s t : State} (h : s.regs = t.regs) (r : Reg) : s.getReg r = t.getReg r := by
  simp [State.getReg, h]

@[simp] theorem State.getReg_setcc (v : Word) (r : Reg) : (s.setcc v).getReg r = s.getReg r := rfl
@[simp] theorem State.getReg_jumpTo (target : Word) (r : Reg) : (s.jumpTo target).getReg r = s.getReg r := rfl
@[simp] theorem State.getReg_consoleWrite (b : Byte) (r : Reg) : (s.consoleWrite b).getReg r = s.getReg r := rfl
@[simp] theorem State.getReg_consoleWriteAll (bs : List Byte) (r : Reg) : (s.consoleWriteAll bs).getReg r = s.getReg r := rfl
@[simp] theorem State.getReg_fetched (w : Word) (r : Reg) : (s.fetched w).getReg r = s.getReg r := rfl
@[simp] theorem State.getReg_halt (r : Reg) : s.halt.getReg r = s.getReg r := rfl

theorem State.getReg_link (r : Reg) : s.link.getReg r = if r = linkReg then s.pc else s.getReg r :=
  State.getReg_setReg s linkReg r s.pc

/-! ### The flag rule -/

theorem condOf_neg_iff (v : Word) : condOf v = .neg ↔ v.toInt < 0 := by
  unfold condOf
  have hmsb : v[15] = decide (v.toInt < 0) := by
    rw [← BitVec.msb_eq_toInt]; rfl
  by_cases h0 : v = 0x0000#16
  · subst h0; decide
  · by_cases hn : v.toInt < 0 <;> simp [h0, hmsb, hn]

theorem condOf_zero_iff (v : Word) : condOf v = .zero ↔ v.toInt = 0 := by
  have hz : v = 0x0000#16 ↔ v.toInt = 0 := by
    rw [← BitVec.toInt_inj]; rfl
  unfold condOf
  rw [← hz]
  by_cases h0 : v = 0x0000#16
  · simp [h0]
  · by_cases hm : v[15] <;> simp [h0, hm]

theorem condOf_pos_iff (v : Word) : condOf v = .pos ↔ 0 < v.toInt := by
  have h1 := condOf_neg_iff v
  have h2 := condOf_zero_iff v
  cases h : condOf v <;> simp [h] at h1 h2 ⊢ <;> omega

/-- Everything a result write does. -/
theorem writeResult_wroteResult (dr : Reg) (v : Word) : s.wroteResult (writeResult dr v s) dr v :=
  ⟨fun r => by simp [writeResult, State.getReg_setReg], condOf_neg_iff v, condOf_zero_iff v, condOf_pos_iff v, rfl⟩

end Sys2Proof.Machine
end

