-- ==== Sys2Proof/Laws/Console.lean ====
section
/-! SUPPORT. The console port and MemRead: everything they can do, said once, in the words of `Sys2Proof/Safety.lean`. -/

namespace Sys2Proof.Machine

@[simp] theorem Console.arrive_out (c : Console) : c.arrive.out = c.out := by
  unfold Console.arrive; split <;> rfl

@[simp] theorem Console.arrive_recurring (c : Console) : c.arrive.recurring = c.recurring := by
  unfold Console.arrive; split <;> rfl

/-- Arriving puts input behind what is pending: none is lost, the order is kept. -/
theorem Console.arrive_pending (c : Console) : ∃ bs, c.arrive.pending = c.pending ++ bs := by
  unfold Console.arrive
  split
  · exact ⟨_, rfl⟩
  · exact ⟨_, rfl⟩
  · exact ⟨[], by simp⟩

/-- With no script, nothing arrives of itself. -/
theorem Console.arrive_nil (c : Console) (h : c.arrivals = []) (h' : c.recurring = []) : c.arrive = c := by
  unfold Console.arrive; rw [h, h']

/-- What the host has supplied is pending at the CORE's next call: a poll answers true (R35). -/
theorem State.consolePoll_supplyInput (s : State) (bs : List Byte) (h : bs ≠ []) :
    (s.supplyInput bs).consolePoll.1 = true := by
  obtain ⟨more, hm⟩ := Console.arrive_pending (s.supplyInput bs).console
  show (!(s.supplyInput bs).console.arrive.pending.isEmpty) = true
  rw [hm]
  simp [h]

/-- What the host has scheduled for the CORE's next call is pending at that call. -/
theorem State.consoleNow_scheduleInput (s : State) (bs : List Byte) (rest recurring : List (List Byte)) :
    (s.scheduleInput (bs :: rest) recurring).consoleNow =
      { s.console with pending := s.console.pending ++ bs, arrivals := rest, recurring := recurring } := rfl

theorem withByte_of_readsByte {s s' : State} {b : Byte} (h : s.readsByte b s') (hd : Hold)
    (k : Byte → State → Answer) : withByte hd k s = k b s' := by
  obtain ⟨rest, hp, rfl⟩ := h
  unfold State.consoleNow at hp
  simp [withByte, State.consoleRead, State.consoleNow, hp]

theorem withByte_of_byteHolds {s s' : State} (h : s.byteHolds s') (hd : Hold) (k : Byte → State → Answer) :
    withByte hd k s = .next { s' with hold := some hd } := by
  obtain ⟨hp, rfl⟩ := h
  unfold State.consoleNow at hp
  simp [withByte, State.consoleRead, State.consoleNow, hp]

/-- A console read returns a byte or blocks. -/
theorem readsByte_or_byteHolds (s : State) : (∃ b s', s.readsByte b s') ∨ ∃ s', s.byteHolds s' := by
  cases h : s.consoleNow.pending with
  | nil => exact .inr ⟨_, h, rfl⟩
  | cons b rest => exact .inl ⟨b, _, rest, h, rfl⟩

/-- What `withByte` can answer. -/
theorem withByte_cases {hd : Hold} {k : Byte → State → Answer} {s : State} {ans : Answer}
    (h : withByte hd k s = ans) :
    (∃ b s', s.readsByte b s' ∧ k b s' = ans) ∨ (∃ s', s.byteHolds s' ∧ ans = .next { s' with hold := some hd }) := by
  rcases readsByte_or_byteHolds s with ⟨b, s', hb⟩ | ⟨s', hb⟩
  · exact .inl ⟨b, s', hb, by rw [← h, withByte_of_readsByte hb]⟩
  · exact .inr ⟨s', hb, by rw [← h, withByte_of_byteHolds hb]⟩

theorem zext_toNat {n : Nat} (h : n ≤ 16) (v : BitVec n) : (zext v).toNat = v.toNat := by
  have := v.isLt
  have : v.toNat < 2 ^ 16 := Nat.lt_of_lt_of_le this (Nat.pow_le_pow_right (by decide) h)
  simp only [zext, BitVec.toNat_setWidth]
  exact Nat.mod_eq_of_lt this

theorem eq_zext_of_toNat {w : Word} {b : Byte} (h : w.toNat = b.toNat) : w = zext b :=
  BitVec.eq_of_toNat_eq (by rw [h, zext_toNat (by decide)])

theorem withRead_of_reads {s s' : State} {a w : Word} (h : s.reads a w s') (hd : Hold)
    (k : Word → State → Answer) : withRead a hd k s = k w s' := by
  rcases h with ⟨h1, h2, rfl, rfl⟩ | ⟨rfl, rfl, rfl⟩ | ⟨h1, rfl, b, hb, hw⟩
  · simp [withRead, h1, h2]
  · unfold State.consoleNow
    have hw : kbsrWord (!s.console.arrive.pending.isEmpty) =
        (if s.console.arrive.pending = [] then 0x0000#16 else 0x8000#16) := by
      cases s.console.arrive.pending <;> rfl
    rw [← hw]
    simp [withRead, State.consolePoll]
  · rw [withRead, if_neg h1, if_pos rfl, withByte_of_readsByte hb, eq_zext_of_toNat hw]

theorem withRead_of_readHolds {s s' : State} {a : Word} (h : s.readHolds a s') (hd : Hold)
    (k : Word → State → Answer) : withRead a hd k s = .next { s' with hold := some hd } := by
  obtain ⟨h1, h2, hb⟩ := h
  rw [withRead, if_neg h1, if_pos h2, withByte_of_byteHolds hb]

/-- MemRead returns a word or holds. -/
theorem reads_or_readHolds (s : State) (a : Word) : (∃ w s', s.reads a w s') ∨ ∃ s', s.readHolds a s' := by
  by_cases h1 : a = s.params.kbsrAddr
  · exact .inl ⟨_, _, .inr (.inl ⟨h1, rfl, rfl⟩)⟩
  · by_cases h2 : a = s.params.kbdrAddr
    · rcases readsByte_or_byteHolds s with ⟨b, s', hb⟩ | ⟨s', hb⟩
      · exact .inl ⟨zext b, s', .inr (.inr ⟨h1, h2, b, hb, zext_toNat (by decide) b⟩)⟩
      · exact .inr ⟨s', h1, h2, hb⟩
    · exact .inl ⟨_, _, .inl ⟨h1, h2, rfl, rfl⟩⟩

/-- What `withRead` can answer. -/
theorem withRead_cases {a : Word} {hd : Hold} {k : Word → State → Answer} {s : State} {ans : Answer}
    (h : withRead a hd k s = ans) :
    (∃ w s', s.reads a w s' ∧ k w s' = ans) ∨ (∃ s', s.readHolds a s' ∧ ans = .next { s' with hold := some hd }) := by
  rcases reads_or_readHolds s a with ⟨w, s', hr⟩ | ⟨s', hr⟩
  · exact .inl ⟨w, s', hr, by rw [← h, withRead_of_reads hr]⟩
  · exact .inr ⟨s', hr, by rw [← h, withRead_of_readHolds hr]⟩

/-- A console read changes the console's input side only. -/
theorem State.readsByte_frame {s s' : State} {b : Byte} (h : s.readsByte b s') :
    s' = { s with console := s'.console } ∧ s'.console.out = s.console.out := by
  obtain ⟨rest, hp, rfl⟩ := h
  exact ⟨rfl, by simp [State.consoleNow]⟩

theorem State.byteHolds_frame {s s' : State} (h : s.byteHolds s') :
    s' = { s with console := s'.console } ∧ s'.console.out = s.console.out := by
  obtain ⟨_, rfl⟩ := h
  exact ⟨rfl, by simp [State.consoleNow]⟩

/-- MemRead changes the console's input side only. -/
theorem State.reads_frame {s s' : State} {a w : Word} (h : s.reads a w s') :
    s' = { s with console := s'.console } ∧ s'.console.out = s.console.out := by
  rcases h with ⟨_, _, _, rfl⟩ | ⟨_, _, rfl⟩ | ⟨_, _, b, hb, _⟩
  · exact ⟨rfl, rfl⟩
  · exact ⟨rfl, by simp [State.consoleNow]⟩
  · exact State.readsByte_frame hb

/-! ### What is consumed -/

/-- Input arrives behind what is pending, so taking bytes first or after makes no difference. -/
theorem Console.tookFrom_arrive {c d : Console} {used : List Byte} (h : c.tookFrom d used) :
    c.arrive.tookFrom d.arrive used := by
  obtain ⟨hp, ha, hr⟩ := h
  unfold Console.arrive
  rw [ha, hr]
  split <;> exact ⟨by simp [hp], by simp_all, by simp_all⟩

theorem Console.tookFrom_afterCalls {c d : Console} {used : List Byte} (h : c.tookFrom d used) (n : Nat) :
    (c.afterCalls n).tookFrom (d.afterCalls n) used := by
  induction n with
  | zero => exact h
  | succ n ih => exact Console.tookFrom_arrive ih

theorem Console.afterCalls_add (c : Console) (m n : Nat) : c.afterCalls (m + n) = (c.afterCalls m).afterCalls n := by
  induction n with
  | zero => rfl
  | succ n ih => exact congrArg Console.arrive ih

theorem State.consumed_of_console {s t : State} (h : t.console = s.console) : s.consumed t [] :=
  ⟨0, by simp [h, Console.afterCalls], by rw [h]; rfl, by rw [h]; rfl⟩

theorem State.consumed_trans {s t u : State} {us vs : List Byte} (h1 : s.consumed t us) (h2 : t.consumed u vs) :
    s.consumed u (us ++ vs) := by
  obtain ⟨m, h1⟩ := h1
  obtain ⟨n, h2⟩ := h2
  obtain ⟨hp, ha, hr⟩ := Console.tookFrom_afterCalls h1 n
  obtain ⟨hp', ha', hr'⟩ := h2
  refine ⟨m + n, ?_, ?_, ?_⟩ <;> rw [Console.afterCalls_add]
  · rw [hp, hp', List.append_assoc]
  · rw [ha', ha]
  · rw [hr', hr]

/-- Only the console matters to what is consumed, and its output does not. -/
theorem State.consumed_congr {s t u : State} {us : List Byte} (h : s.consumed t us)
    (hp : u.console.pending = t.console.pending) (ha : u.console.arrivals = t.console.arrivals)
    (hr : u.console.recurring = t.console.recurring) : s.consumed u us := by
  obtain ⟨n, h⟩ := h
  exact ⟨n, by rw [hp, h.pending], by rw [ha, h.arrivals], by rw [hr, h.recurring]⟩

theorem State.readsByte_consumed {s s' : State} {b : Byte} (h : s.readsByte b s') : s.consumed s' [b] := by
  obtain ⟨rest, hp, rfl⟩ := h
  exact ⟨1, by simpa [State.consoleNow, Console.afterCalls] using hp, rfl, rfl⟩

theorem State.byteHolds_consumed {s s' : State} (h : s.byteHolds s') : s.consumed s' [] := by
  obtain ⟨_, rfl⟩ := h
  exact ⟨1, by simp [State.consoleNow, Console.afterCalls], rfl, rfl⟩

/-- MemRead consumes one byte at most, and that at KBDR. -/
theorem State.reads_consumed {s s' : State} {a w : Word} (h : s.reads a w s') :
    ∃ used, s.consumed s' used ∧ used.length ≤ s.kbdrReads a := by
  rcases h with ⟨_, _, _, rfl⟩ | ⟨_, _, rfl⟩ | ⟨_, h2, b, hb, _⟩
  · exact ⟨[], State.consumed_of_console rfl, Nat.zero_le _⟩
  · exact ⟨[], ⟨1, by simp [State.consoleNow, Console.afterCalls], rfl, rfl⟩, Nat.zero_le _⟩
  · exact ⟨[b], State.readsByte_consumed hb, by simp [State.kbdrReads, h2]⟩

end Sys2Proof.Machine
end

