-- ==== Sys2Proof/Laws/Encoding.lean ====
section
/-! SUPPORT. Bit-level lemmas about the decoder's and the encoder's fields, so that an encoding claim becomes a claim about
single bits. -/

namespace Sys2Proof

/-- Two words are equal when their sixteen bits are. -/
theorem word_ext_iff (x y : Word) : x = y ↔ ∀ k, k < 16 → x.getLsbD k = y.getLsbD k :=
  ⟨fun h _ _ => by rw [h], fun h => BitVec.eq_of_getLsbD_eq h⟩

theorem forall_bits_iff (P : Nat → Prop) : (∀ k, k < 16 → P k) ↔
    P 0 ∧ P 1 ∧ P 2 ∧ P 3 ∧ P 4 ∧ P 5 ∧ P 6 ∧ P 7 ∧ P 8 ∧ P 9 ∧ P 10 ∧ P 11 ∧ P 12 ∧ P 13 ∧ P 14 ∧ P 15 := by
  constructor
  · intro h
    refine ⟨h _ ?_, h _ ?_, h _ ?_, h _ ?_, h _ ?_, h _ ?_, h _ ?_, h _ ?_, h _ ?_, h _ ?_, h _ ?_, h _ ?_, h _ ?_, h _ ?_,
      h _ ?_, h _ ?_⟩ <;> decide
  · rintro ⟨_, _, _, _, _, _, _, _, _, _, _, _, _, _, _, _⟩ k hk
    interval_cases k <;> assumption

theorem getLsbD_bitsAt (w : Word) (lo len k : Nat) :
    (bitsAt w lo len).getLsbD k = (decide (k < len) && w.getLsbD (lo + k)) :=
  BitVec.getLsbD_extractLsb' ..

theorem getLsbD_regBits (r : Reg) (k : Nat) : (regBits r).getLsbD k = r.val.testBit k := rfl

theorem regBits_regAt (w : Word) (lo : Nat) : regBits (regAt w lo) = bitsAt w lo 3 := rfl

theorem regAt_val (w : Word) (lo : Nat) : (regAt w lo).val = (bitsAt w lo 3).toNat := rfl

/-- The dispatch by the four opcode bits, read as `getLsbD`. -/
theorem decode_by_opcode (w : Word) : decode w =
    match w.getLsbD 15, w.getLsbD 14, w.getLsbD 13, w.getLsbD 12 with
    | false, false, false, false => .br (w.getLsbD 11) (w.getLsbD 10) (w.getLsbD 9) (bitsAt w 0 9)
    | false, false, false, true  => decodeAdd w
    | false, false, true,  false => .ld (regAt w 9) (bitsAt w 0 9)
    | false, false, true,  true  => .st (regAt w 9) (bitsAt w 0 9)
    | false, true,  false, false => decodeJsr w
    | false, true,  false, true  => decodeAnd w
    | false, true,  true,  false => .ldr (regAt w 9) (regAt w 6) (bitsAt w 0 6)
    | false, true,  true,  true  => .str (regAt w 9) (regAt w 6) (bitsAt w 0 6)
    | true,  false, false, false => .reserved8
    | true,  false, false, true  => .notR (regAt w 9) (regAt w 6)
    | true,  false, true,  false => .ldi (regAt w 9) (bitsAt w 0 9)
    | true,  false, true,  true  => .sti (regAt w 9) (bitsAt w 0 9)
    | true,  true,  false, false => decodeJmp w
    | true,  true,  false, true  => .reservedD
    | true,  true,  true,  false => .lea (regAt w 9) (bitsAt w 0 9)
    | true,  true,  true,  true  => decodeTrap (bitsAt w 0 8) := rfl

/-- What the trap decoder answers, by the vector. -/
theorem decodeTrap_unknown {v : Byte} (h : v ∉ knownVectors) : decodeTrap v = .trapUnknown v := by
  simp only [knownVectors, List.mem_cons, List.not_mem_nil, or_false, not_or] at h
  obtain ⟨h0, h1, h2, h3, h4, h5⟩ := h
  simp [decodeTrap, h0, h1, h2, h3, h4, h5]

end Sys2Proof
end

