-- ==== Sys2Proof/Laws/Memory.lean ====
section
/-! SUPPORT. Plain memory: reading after writing, and that every operation keeps the canonical form. -/

namespace Sys2Proof.Machine

theorem Memory.read_cons (m : Memory) (a b : Nat) (v : Word) (h : ∀ c ∈ m, a < c.1) :
    (Memory.cons a v m).read b = if b = a then v else m.read b := by
  unfold Memory.cons
  split
  · rename_i hv
    split
    · rename_i hb
      subst hb
      have : ∀ m : Memory, (∀ c ∈ m, b < c.1) → m.read b = Config.resetMem := by
        intro m
        induction m with
        | nil => intro _; rfl
        | cons c m ih =>
          intro h
          have hc := h c (by simp)
          rw [Memory.read, if_neg (by omega)]
          exact ih (fun d hd => h d (by simp [hd]))
      rw [this m h, hv]
    · rfl
  · simp [Memory.read]

/-- A cell reads as what was last written there; every other cell reads as before. -/
theorem Memory.read_write (m : Memory) (hm : m.wf) (a b : Nat) (v : Word) :
    (m.write a v).read b = if b = a then v else m.read b := by
  induction m with
  | nil => exact Memory.read_cons [] a b v (by simp)
  | cons c m ih =>
    obtain ⟨k, u⟩ := c
    obtain ⟨hs, hc⟩ := hm
    rw [List.pairwise_cons] at hs
    have hrest : Memory.wf m := ⟨hs.2, fun d hd => hc d (by simp [hd])⟩
    unfold Memory.write
    split
    · rename_i hlt
      apply Memory.read_cons
      intro d hd
      rcases List.mem_cons.mp hd with rfl | hd
      · exact hlt
      · exact Nat.lt_trans hlt (hs.1 d hd)
    · split
      · rename_i _ heq
        subst heq
        rw [Memory.read_cons m a b v hs.1]
        by_cases hb : b = a <;> simp [Memory.read, hb]
      · rename_i hnl hne
        simp only [Memory.read]
        by_cases hb : b = k
        · have : b ≠ a := by omega
          rw [if_pos hb, if_neg this, if_pos hb]
        · rw [if_neg hb, ih hrest, if_neg hb]

theorem Memory.mem_cons {a : Nat} {v : Word} {m : Memory} {c : Nat × Word} (h : c ∈ Memory.cons a v m) :
    (c = (a, v) ∧ v ≠ Config.resetMem) ∨ c ∈ m := by
  unfold Memory.cons at h
  split at h
  · exact .inr h
  · rename_i hv
    rcases List.mem_cons.mp h with h | h
    · exact .inl ⟨h, hv⟩
    · exact .inr h

theorem Memory.mem_write {a : Nat} {v : Word} {m : Memory} {c : Nat × Word} (h : c ∈ m.write a v) :
    (c = (a, v) ∧ v ≠ Config.resetMem) ∨ c ∈ m := by
  induction m with
  | nil => exact Memory.mem_cons h
  | cons d m ih =>
    obtain ⟨k, u⟩ := d
    unfold Memory.write at h
    split at h
    · exact Memory.mem_cons h
    · split at h
      · rcases Memory.mem_cons h with h | h
        · exact .inl h
        · exact .inr (by simp [h])
      · rcases List.mem_cons.mp h with h | h
        · exact .inr (by simp [h])
        · rcases ih h with h | h
          · exact .inl h
          · exact .inr (by simp [h])

theorem Memory.cons_pairwise {a : Nat} {v : Word} {m : Memory} (hs : m.Pairwise (fun c d => c.1 < d.1))
    (h : ∀ c ∈ m, a < c.1) : (Memory.cons a v m).Pairwise (fun c d => c.1 < d.1) := by
  unfold Memory.cons
  split
  · exact hs
  · exact List.pairwise_cons.mpr ⟨h, hs⟩

theorem Memory.write_pairwise {m : Memory} (hs : m.Pairwise (fun c d => c.1 < d.1)) (a : Nat) (v : Word) :
    (m.write a v).Pairwise (fun c d => c.1 < d.1) := by
  induction m with
  | nil => exact Memory.cons_pairwise .nil (by simp)
  | cons d m ih =>
    obtain ⟨k, u⟩ := d
    have hs' := List.pairwise_cons.mp hs
    unfold Memory.write
    split
    · rename_i hlt
      refine Memory.cons_pairwise hs (fun c hc => ?_)
      rcases List.mem_cons.mp hc with rfl | hc
      · exact hlt
      · exact Nat.lt_trans hlt (hs'.1 c hc)
    · split
      · rename_i heq
        subst heq
        exact Memory.cons_pairwise hs'.2 hs'.1
      · refine List.pairwise_cons.mpr ⟨fun c hc => ?_, ih hs'.2⟩
        rcases Memory.mem_write hc with ⟨rfl, _⟩ | hc
        · simp only; omega
        · exact hs'.1 c hc

/-- A write inside the space keeps the canonical form. -/
theorem Memory.write_wf {m : Memory} (hm : m.wf) {a : Nat} (ha : a < 65536) (v : Word) : (m.write a v).wf := by
  refine ⟨Memory.write_pairwise hm.1 a v, fun c hc => ?_⟩
  rcases Memory.mem_write hc with ⟨rfl, hv⟩ | hc
  · exact ⟨ha, hv⟩
  · exact hm.2 c hc

theorem Word.addr_lt (a : Word) : a.addr < 65536 := a.isLt

theorem Memory.load_wf (ws : List Word) : ∀ (m : Memory) (a : Word), m.wf → (Memory.load m a ws).wf := by
  induction ws with
  | nil => intro m a hm; exact hm
  | cons w ws ih => intro m a hm; exact ih _ _ (Memory.write_wf hm (Word.addr_lt a) w)

theorem State.reset_mem_wf : State.reset.mem.wf := by decide

/-! ### MemWrite -/

theorem State.memWrite_mapped (s : State) (a v : Word) (h : s.params.mapped a = true) : s.memWrite a v = s := by
  simp [State.memWrite, h]

theorem State.memWrite_plain (s : State) (a v : Word) (h : s.params.mapped a = false) :
    s.memWrite a v = { s with mem := s.mem.write a.addr v } := by
  simp [State.memWrite, h]

/-- MemWrite changes memory and nothing else. -/
theorem State.memWrite_fields (s : State) (a v : Word) :
    s.memWrite a v = { s with mem := (s.memWrite a v).mem } := by
  unfold State.memWrite; split <;> rfl

theorem State.memWrite_wf {s : State} (hm : s.mem.wf) (a v : Word) : (s.memWrite a v).mem.wf := by
  unfold State.memWrite
  split
  · exact hm
  · exact Memory.write_wf hm (Word.addr_lt a) v

end Sys2Proof.Machine
end

