-- ==== Sys2Proof/Laws/PerInstr.lean ====
section
/-! SUPPORT. Statements about every instruction, one lemma per constructor. FixedBits: the encoder writes the fixed bits of the
instruction's row of spec/opcode_table.json (30_encoding.md R66: a word matches a row when `(w & mask) == match`). -/

namespace Sys2Proof.Laws.FixedBits

/-- The word of `i` matches `i`'s row. -/
def Statement (i : Instr) : Prop := encode i &&& i.rowMask = i.rowMatch

/-- The statement bit by bit: a bit the row fixes has the row's value. -/
theorem statement_iff (i : Instr) : Statement i ↔
    ∀ k, k < 16 → ((encode i).getLsbD k && i.rowMask.getLsbD k) = i.rowMatch.getLsbD k := by
  rw [Statement, word_ext_iff]; simp only [BitVec.getLsbD_and]

theorem br (n z p : Bool) (off : BitVec 9) : Statement (.br n z p off) := by
  rw [statement_iff, forall_bits_iff]
  simp only [encode, Instr.rowMask, Instr.rowMatch, BitVec.getLsbD_append]
  simp +decide

theorem addReg (dr sr1 sr2 : Reg) : Statement (.addReg dr sr1 sr2) := by
  rw [statement_iff, forall_bits_iff]
  simp only [encode, Instr.rowMask, Instr.rowMatch, BitVec.getLsbD_append]
  simp +decide

theorem addImm (dr sr1 : Reg) (imm : BitVec 5) : Statement (.addImm dr sr1 imm) := by
  rw [statement_iff, forall_bits_iff]
  simp only [encode, Instr.rowMask, Instr.rowMatch, BitVec.getLsbD_append]
  simp +decide

theorem ld (dr : Reg) (off : BitVec 9) : Statement (.ld dr off) := by
  rw [statement_iff, forall_bits_iff]
  simp only [encode, Instr.rowMask, Instr.rowMatch, BitVec.getLsbD_append]
  simp +decide

theorem st (sr : Reg) (off : BitVec 9) : Statement (.st sr off) := by
  rw [statement_iff, forall_bits_iff]
  simp only [encode, Instr.rowMask, Instr.rowMatch, BitVec.getLsbD_append]
  simp +decide

theorem jsr (off : BitVec 11) : Statement (.jsr off) := by
  rw [statement_iff, forall_bits_iff]
  simp only [encode, Instr.rowMask, Instr.rowMatch, BitVec.getLsbD_append]
  simp +decide

theorem jsrr (base : Reg) : Statement (.jsrr base) := by
  rw [statement_iff, forall_bits_iff]
  simp only [encode, Instr.rowMask, Instr.rowMatch, BitVec.getLsbD_append]
  simp +decide

theorem andReg (dr sr1 sr2 : Reg) : Statement (.andReg dr sr1 sr2) := by
  rw [statement_iff, forall_bits_iff]
  simp only [encode, Instr.rowMask, Instr.rowMatch, BitVec.getLsbD_append]
  simp +decide

theorem andImm (dr sr1 : Reg) (imm : BitVec 5) : Statement (.andImm dr sr1 imm) := by
  rw [statement_iff, forall_bits_iff]
  simp only [encode, Instr.rowMask, Instr.rowMatch, BitVec.getLsbD_append]
  simp +decide

theorem ldr (dr base : Reg) (off : BitVec 6) : Statement (.ldr dr base off) := by
  rw [statement_iff, forall_bits_iff]
  simp only [encode, Instr.rowMask, Instr.rowMatch, BitVec.getLsbD_append]
  simp +decide

theorem str (sr base : Reg) (off : BitVec 6) : Statement (.str sr base off) := by
  rw [statement_iff, forall_bits_iff]
  simp only [encode, Instr.rowMask, Instr.rowMatch, BitVec.getLsbD_append]
  simp +decide

theorem reserved8 : Statement .reserved8 := by
  unfold Statement; decide

theorem notR (dr sr : Reg) : Statement (.notR dr sr) := by
  rw [statement_iff, forall_bits_iff]
  simp only [encode, Instr.rowMask, Instr.rowMatch, BitVec.getLsbD_append]
  simp +decide

theorem ldi (dr : Reg) (off : BitVec 9) : Statement (.ldi dr off) := by
  rw [statement_iff, forall_bits_iff]
  simp only [encode, Instr.rowMask, Instr.rowMatch, BitVec.getLsbD_append]
  simp +decide

theorem sti (sr : Reg) (off : BitVec 9) : Statement (.sti sr off) := by
  rw [statement_iff, forall_bits_iff]
  simp only [encode, Instr.rowMask, Instr.rowMatch, BitVec.getLsbD_append]
  simp +decide

theorem jmp (base : Reg) : Statement (.jmp base) := by
  rw [statement_iff, forall_bits_iff]
  simp only [encode, Instr.rowMask, Instr.rowMatch, BitVec.getLsbD_append]
  simp +decide

theorem reservedD : Statement .reservedD := by
  unfold Statement; decide

theorem lea (dr : Reg) (off : BitVec 9) : Statement (.lea dr off) := by
  rw [statement_iff, forall_bits_iff]
  simp only [encode, Instr.rowMask, Instr.rowMatch, BitVec.getLsbD_append]
  simp +decide

theorem trapGetc : Statement .trapGetc := by
  unfold Statement; decide

theorem trapOut : Statement .trapOut := by
  unfold Statement; decide

theorem trapPuts : Statement .trapPuts := by
  unfold Statement; decide

theorem trapIn : Statement .trapIn := by
  unfold Statement; decide

theorem trapPutsp : Statement .trapPutsp := by
  unfold Statement; decide

theorem trapHalt : Statement .trapHalt := by
  unfold Statement; decide

theorem trapUnknown (vec : Byte) : Statement (.trapUnknown vec) := by
  rw [statement_iff, forall_bits_iff]
  simp only [encode, Instr.rowMask, Instr.rowMatch, BitVec.getLsbD_append]
  simp +decide

theorem ret : Statement .ret := by
  unfold Statement; decide

end Sys2Proof.Laws.FixedBits
end

