-- ==== Sys2Proof/Laws/Scan.lean ====
section
/-! SUPPORT. The string scans of PUTS and PUTSP: that a scan goes on behind the cells it has passed, that it always answers a
state, and everything it can change. -/

namespace Sys2Proof.Machine

theorem Word.add_succ (a : Word) (k : Nat) : a + 1 + BitVec.ofNat 16 k = a + BitVec.ofNat 16 (k + 1) := by
  have h1 : BitVec.ofNat 16 (k + 1) = 1 + BitVec.ofNat 16 k := by
    apply BitVec.eq_of_toNat_eq
    simp [Nat.add_comm]
  rw [h1, BitVec.add_assoc]

theorem lowByte_eq (w : Word) : lowByte w = BitVec.ofNat 8 w.toNat := by
  simp [lowByte, BitVec.extractLsb']

theorem highByte_eq (w : Word) : highByte w = BitVec.ofNat 8 (w.toNat / 256) := by
  simp [highByte, BitVec.extractLsb', Nat.shiftRight_eq_div_pow]

theorem lowByte_eq_zero (w : Word) : lowByte w = 0x00#8 ↔ w.toNat % 256 = 0 := by
  rw [lowByte_eq]; exact ⟨fun h => by simpa using congrArg BitVec.toNat h, fun h => BitVec.eq_of_toNat_eq (by simpa using h)⟩

theorem highByte_eq_zero (w : Word) : highByte w = 0x00#8 ↔ w.toNat / 256 = 0 := by
  have hw := w.isLt
  have hm : w.toNat / 256 % 256 = w.toNat / 256 := Nat.mod_eq_of_lt (by omega)
  rw [highByte_eq, ← hm]
  exact ⟨fun h => by simpa [hm] using congrArg BitVec.toNat h, fun h => BitVec.eq_of_toNat_eq (by simpa [hm] using h)⟩

/-- PUTS goes on behind the cells it has passed, with the fuel that is left. -/
theorem putsLoop_of_passes {s t : State} {n : Nat} {a : Word} (h : s.putsPasses n a t) (m : Nat) :
    putsLoop (n + m) a s = putsLoop m (a + BitVec.ofNat 16 n) t := by
  induction n generalizing s a with
  | zero => cases h; simp
  | succ n ih =>
    obtain ⟨w, s', u, hr, hw, rfl, hp⟩ := h
    rw [Nat.succ_add, putsLoop, withRead_of_reads hr, putsCell, if_neg hw, ← Word.add_succ, ← ih hp, State.consoleWrite,
      lowByte_eq]

/-- PUTSP goes on behind the cells it has passed, with the fuel that is left. -/
theorem putspLoop_of_passes {s t : State} {n : Nat} {a : Word} (h : s.putspPasses n a t) (m : Nat) :
    putspLoop (n + m) a s = putspLoop m (a + BitVec.ofNat 16 n) t := by
  induction n generalizing s a with
  | zero => cases h; simp
  | succ n ih =>
    obtain ⟨w, s', u, hr, hl, hh, rfl, hp⟩ := h
    rw [Nat.succ_add, putspLoop, withRead_of_reads hr, putspCell, if_neg (mt (lowByte_eq_zero w).1 hl),
      if_neg (mt (highByte_eq_zero w).1 hh), ← Word.add_succ, ← ih hp]
    simp [State.consoleWrite, lowByte_eq, highByte_eq]

/-- PUTS's loop always answers a state. -/
theorem putsLoop_next (n : Nat) (a : Word) (s : State) : ∃ t, putsLoop n a s = .next t := by
  induction n generalizing a s with
  | zero => exact ⟨_, rfl⟩
  | succ n ih =>
    rw [putsLoop]
    rcases reads_or_readHolds s a with ⟨w, s', hr⟩ | ⟨s', hr⟩
    · rw [withRead_of_reads hr]; unfold putsCell; split
      · exact ⟨_, rfl⟩
      · exact ih _ _
    · rw [withRead_of_readHolds hr]; exact ⟨_, rfl⟩

/-- PUTSP's loop always answers a state. -/
theorem putspLoop_next (n : Nat) (a : Word) (s : State) : ∃ t, putspLoop n a s = .next t := by
  induction n generalizing a s with
  | zero => exact ⟨_, rfl⟩
  | succ n ih =>
    rw [putspLoop]
    rcases reads_or_readHolds s a with ⟨w, s', hr⟩ | ⟨s', hr⟩
    · rw [withRead_of_reads hr]; unfold putspCell; split
      · exact ⟨_, rfl⟩
      · split
        · exact ⟨_, rfl⟩
        · exact ih _ _
    · rw [withRead_of_readHolds hr]; exact ⟨_, rfl⟩

/-- What a scan may change: the console, its output only by appending, and the hold, which is then at KBDR or says `mark`. -/
structure ScanFrame (mk : Word → Hold) (mark : Hold) (s t : State) : Prop where
  fields : t = { s with console := t.console, hold := t.hold }
  output : ∃ bs, t.console.out = s.console.out ++ bs
  holdAt : t.hold = s.hold ∨ t.hold = some (mk s.params.kbdrAddr) ∨ t.hold = some mark

variable {mk : Word → Hold} {mark : Hold}

theorem ScanFrame.trans {s t u : State} (h1 : ScanFrame mk mark s t) (h2 : ScanFrame mk mark t u)
    (ht : t.hold = s.hold) : ScanFrame mk mark s u := by
  obtain ⟨o1, ho1⟩ := h1.output
  obtain ⟨o2, ho2⟩ := h2.output
  refine ⟨?_, ⟨o1 ++ o2, by rw [ho2, ho1, List.append_assoc]⟩, ?_⟩
  · rw [h2.fields, h1.fields]
  · have hp : t.params = s.params := by rw [h1.fields]
    rcases h2.holdAt with h | h | h
    · exact .inl (h.trans ht)
    · exact .inr (.inl (by rw [h, hp]))
    · exact .inr (.inr h)

theorem ScanFrame.of_reads {s s' : State} {a w : Word} (h : s.reads a w s') :
    ScanFrame mk mark s s' ∧ s'.hold = s.hold := by
  obtain ⟨hf, ho⟩ := State.reads_frame h
  have hh : s'.hold = s.hold := by rw [hf]
  exact ⟨⟨by rw [hh]; exact hf, ⟨[], by simp [ho]⟩, .inl hh⟩, hh⟩

theorem ScanFrame.of_readHolds {s s' : State} {a : Word} (h : s.readHolds a s') :
    ScanFrame mk mark s { s' with hold := some (mk a) } := by
  obtain ⟨_, rfl, hb⟩ := h
  obtain ⟨hf, ho⟩ := State.byteHolds_frame hb
  refine ⟨?_, ⟨[], by simp [ho]⟩, .inr (.inl rfl)⟩
  rw [hf]

theorem ScanFrame.of_consoleWrite (s : State) (b : Byte) : ScanFrame mk mark s (s.consoleWrite b) :=
  ⟨rfl, ⟨[b], rfl⟩, .inl rfl⟩

/-- Everything PUTS's loop can do: with fuel for `n` cells it is marked unfinished `n` cells on. -/
theorem putsLoop_frame (n : Nat) (a : Word) (s t : State) (h : putsLoop n a s = .next t) :
    ScanFrame .puts (.putsRound (a + BitVec.ofNat 16 n)) s t := by
  induction n generalizing a s with
  | zero =>
    cases h
    exact ⟨rfl, ⟨[], by simp⟩, .inr (.inr (by simp))⟩
  | succ n ih =>
    rw [putsLoop] at h
    rcases withRead_cases h with ⟨w, s', hr, hk⟩ | ⟨s', hr, hk⟩
    · obtain ⟨hf, hh⟩ := ScanFrame.of_reads (mk := .puts) (mark := .putsRound (a + BitVec.ofNat 16 (n + 1))) hr
      unfold putsCell at hk
      split at hk
      · cases hk; exact hf
      · rw [← Word.add_succ] at hf ⊢
        exact (hf.trans (.of_consoleWrite s' _) hh).trans (ih _ _ hk) (by simp [hh])
    · cases hk; exact .of_readHolds hr

/-- Everything PUTSP's loop can do: with fuel for `n` cells it is marked unfinished `n` cells on. -/
theorem putspLoop_frame (n : Nat) (a : Word) (s t : State) (h : putspLoop n a s = .next t) :
    ScanFrame .putsp (.putspRound (a + BitVec.ofNat 16 n)) s t := by
  induction n generalizing a s with
  | zero =>
    cases h
    exact ⟨rfl, ⟨[], by simp⟩, .inr (.inr (by simp))⟩
  | succ n ih =>
    rw [putspLoop] at h
    rcases withRead_cases h with ⟨w, s', hr, hk⟩ | ⟨s', hr, hk⟩
    · obtain ⟨hf, hh⟩ := ScanFrame.of_reads (mk := .putsp) (mark := .putspRound (a + BitVec.ofNat 16 (n + 1))) hr
      rw [← Word.add_succ] at hf ⊢
      have h1 := hf.trans (.of_consoleWrite s' (lowByte w)) hh
      unfold putspCell at hk
      split at hk
      · cases hk; exact hf
      · split at hk
        · cases hk; exact h1
        · exact (h1.trans (.of_consoleWrite _ (highByte w)) (by simp [hh])).trans (ih _ _ hk) (by simp [hh])
    · cases hk; exact .of_readHolds hr

/-- KBSR's word has a zero low character: it ends PUTSP's scan. -/
theorem lowByte_kbsrWord (ready : Bool) : lowByte (kbsrWord ready) = 0x00#8 := by cases ready <;> rfl

theorem distance_step {k a : Word} (h : a ≠ k) : (k - (a + 1)).toNat + 1 = (k - a).toNat := by
  have : (k - a).toNat ≠ 0 := by
    intro h0
    apply h
    have : k - a = 0#16 := BitVec.eq_of_toNat_eq h0
    bv_omega
  have h1 : k - (a + 1) = (k - a) - 1 := by bv_omega
  rw [h1]
  generalize k - a = d at *
  bv_omega

/-- With fuel to reach KBSR, PUTSP's loop ends or holds: it is never marked unfinished. -/
theorem putspLoop_ends (n : Nat) (a : Word) (s t : State) (hn : (s.params.kbsrAddr - a).toNat < n)
    (h : putspLoop n a s = .next t) : t.hold = s.hold ∨ t.hold = some (.putsp s.params.kbdrAddr) := by
  induction n generalizing a s with
  | zero => omega
  | succ n ih =>
    rw [putspLoop] at h
    rcases withRead_cases h with ⟨w, s', hr, hk⟩ | ⟨s', hr, hk⟩
    · have hf := (State.reads_frame hr).1
      have hh : s'.hold = s.hold := by rw [hf]
      have hp : s'.params = s.params := by rw [hf]
      unfold putspCell at hk
      split at hk
      · cases hk; exact .inl hh
      · rename_i hl
        split at hk
        · cases hk; exact .inl (by simp [hh])
        · have ha : a ≠ s.params.kbsrAddr := by
            rintro rfl
            rcases hr with ⟨h1, _⟩ | ⟨_, rfl, _⟩ | ⟨h1, _⟩
            · exact h1 rfl
            · split at hl <;> exact hl rfl
            · exact h1 rfl
          have hd := distance_step ha
          have := ih (a + 1) ((s'.consoleWrite (lowByte w)).consoleWrite (highByte w)) (by simp only [State.consoleWrite_params, hp]; omega) hk
          simpa [hh, hp] using this
    · cases hk
      exact .inr (by rw [hr.2.1])

/-- PUTS's loop consumes one byte at most in a round, and that where it passes KBDR. -/
theorem putsLoop_consumed (n : Nat) (a : Word) (s t : State) (hn : n ≤ 65536) (h : putsLoop n a s = .next t) :
    ∃ used, s.consumed t used ∧ used.length ≤ if (s.params.kbdrAddr - a).toNat < n then 1 else 0 := by
  induction n generalizing a s with
  | zero => cases h; exact ⟨[], State.consumed_of_console rfl, Nat.zero_le _⟩
  | succ n ih =>
    rw [putsLoop] at h
    rcases withRead_cases h with ⟨w, s', hr, hk⟩ | ⟨s', hr, hk⟩
    · obtain ⟨us, hus, hul⟩ := State.reads_consumed hr
      have hp : s'.params = s.params := by rw [(State.reads_frame hr).1]
      unfold putsCell at hk
      split at hk
      · cases hk
        refine ⟨us, hus, Nat.le_trans hul ?_⟩
        unfold State.kbdrReads
        by_cases ha : a = s.params.kbdrAddr
        · subst ha; simp
        · simp [ha]
      · obtain ⟨vs, hvs, hvl⟩ := ih (a + 1) (s'.consoleWrite (lowByte w)) (by omega) hk
        have hc : s.consumed (s'.consoleWrite (lowByte w)) us := State.consumed_congr hus rfl rfl rfl
        refine ⟨us ++ vs, State.consumed_trans hc hvs, ?_⟩
        rw [List.length_append]
        simp only [State.consoleWrite_params, hp] at hvl
        unfold State.kbdrReads at hul
        by_cases ha : a = s.params.kbdrAddr
        · subst ha
          have hb : ¬ (s.params.kbdrAddr - (s.params.kbdrAddr + 1)).toNat < n := by
            have : s.params.kbdrAddr - (s.params.kbdrAddr + 1) = 0xFFFF#16 := by bv_omega
            rw [this]; simp; omega
          rw [if_neg hb] at hvl
          simp at hul ⊢
          omega
        · have := distance_step ha
          rw [if_neg ha] at hul
          split at hvl <;> split <;> omega
    · cases hk
      exact ⟨[], State.consumed_congr (State.byteHolds_consumed hr.2.2) rfl rfl rfl, Nat.zero_le _⟩

/-- PUTSP's loop consumes one byte at most, in however many cells: KBDR's word ends the scan or is its last. -/
theorem putspLoop_consumed (n : Nat) (a : Word) (s t : State) (h : putspLoop n a s = .next t) :
    ∃ used, s.consumed t used ∧ used.length ≤ 1 := by
  induction n generalizing a s with
  | zero => cases h; exact ⟨[], State.consumed_of_console rfl, Nat.zero_le _⟩
  | succ n ih =>
    rw [putspLoop] at h
    rcases withRead_cases h with ⟨w, s', hr, hk⟩ | ⟨s', hr, hk⟩
    · obtain ⟨us, hus, hul⟩ := State.reads_consumed hr
      have hu1 : us.length ≤ 1 := by unfold State.kbdrReads at hul; split at hul <;> omega
      have h2 : s.consumed ((s'.consoleWrite (lowByte w)).consoleWrite (highByte w)) us :=
        State.consumed_congr hus rfl rfl rfl
      unfold putspCell at hk
      split at hk
      · cases hk; exact ⟨us, hus, hu1⟩
      · rename_i hlo
        split at hk
        · cases hk; exact ⟨us, State.consumed_congr hus rfl rfl rfl, hu1⟩
        · rename_i hhi
          have hus0 : us = [] := by
            rcases hr with ⟨h1, h2, _⟩ | ⟨ha, rfl, _⟩ | ⟨_, _, b, _, hw⟩
            · simpa [State.kbdrReads, h2] using hul
            · exact absurd (by split <;> rfl) hlo
            · refine absurd ((highByte_eq_zero w).2 ?_) hhi
              have := b.isLt; omega
          obtain ⟨vs, hvs, hvl⟩ := ih _ _ hk
          exact ⟨us ++ vs, State.consumed_trans h2 hvs, by simpa [hus0] using hvl⟩
    · cases hk
      exact ⟨[], State.consumed_congr (State.byteHolds_consumed hr.2.2) rfl rfl rfl, Nat.zero_le _⟩

end Sys2Proof.Machine
end

