-- ==== Sys2Proof/Laws/Step.lean ====
section
/-! SUPPORT. The step: the two ways a running CORE's step goes, said once, a run step by step, and where a scan between two
rounds goes on. -/

namespace Sys2Proof.Machine

theorem step_of_none {s : State} (h1 : s.status = .running) (h2 : s.hold = none) : step s = fetchAndRun s := by
  unfold step; rw [h1, h2]

theorem step_of_hold {s : State} {h : Hold} (h1 : s.status = .running) (h2 : s.hold = some h) : step s = resume h s := by
  unfold step; rw [h1, h2]

/-- Everything a step that answers a state is. -/
theorem step_cases {s t : State} (h : step s = .next t) :
    s.status = .running ∧
    ((s.hold = none ∧ fetchAndRun s = .next t) ∨ ∃ hd, s.hold = some hd ∧ resume hd s = .next t) := by
  cases h1 : s.status with
  | halted => unfold step at h; rw [h1] at h; cases h
  | faulted => unfold step at h; rw [h1] at h; cases h
  | running =>
    cases h2 : s.hold with
    | none => rw [step_of_none h1 h2] at h; exact ⟨rfl, .inl ⟨rfl, h⟩⟩
    | some hd => rw [step_of_hold h1 h2] at h; exact ⟨rfl, .inr ⟨hd, rfl, h⟩⟩

/-- A run of one step more is the step and then the run. -/
theorem run_succ {s t : State} (n : Nat) (h : step s = .next t) :
    Sys2Proof.core.run (n + 1) s = Sys2Proof.core.run n t := by
  have h' : Sys2Proof.core.step s = .next t := h
  simp only [Host.Core.run, h']

theorem resume_putsRound (a : Word) (s : State) : resume (.putsRound a) s = putsFrom a { s with hold := none } := by
  unfold resume; dsimp only

theorem resume_putspRound (a : Word) (s : State) : resume (.putspRound a) s = putspFrom a { s with hold := none } := by
  unfold resume; dsimp only

end Sys2Proof.Machine
end

