-- ==== Sys2Proof/Tests/Slice0.lean ====
section
/-! SUPPORT. Tests. Expected results are the spec's own: the worked examples and derived vectors of spec/95_test_vectors.md
(named A1, M5, T13, … there), the examples of the instruction rules, and words written out from the bit strings of
spec/30_encoding.md R62. After them, for every statement that has hypotheses, a witness that meets them. -/

namespace Sys2Proof.Tests

open Sys2Proof.Machine

/-! ### Helpers -/

/-- The vectors' machine: default addresses, IN_PROMPT "> " (vectors T13, T14), link first. -/
def params : Params :=
  { kbsrAddr := 0xFE00#16, kbdrAddr := 0xFE02#16, inPrompt := [0x3E#8, 0x20#8], jsrrLinkFirst := true }

/-- A console with these bytes pending and no script. -/
def typed (bs : List Byte) : Console := { pending := bs, arrivals := [], recurring := [], out := [] }

/-- The vectors' start state: reset, `pc` at `pc`, memory `m`, `bs` pending. -/
def start (pc : Word) (m : Memory) (bs : List Byte) : State :=
  { State.reset with pc := pc, mem := m, console := typed bs, params := params }

/-- A start state at 0x3000 holding the one word `w`, with two registers set. -/
def one (w : Word) (r q : Reg) (a b : Word) : State :=
  ((start 0x3000#16 [(0x3000, w)] []).setReg r a).setReg q b

/-- The next state of an answer. -/
def next? : Answer → Option State
  | .next s => some s
  | .fault _ => none
  | .refused _ => none

/-- What `f` sees of the state after one step. -/
def after {α : Type} (s : State) (f : State → α) : Option α := (next? (step s)).map f

/-! ### WellFormed: an ill-formed term for each check -/

theorem test_jmp_through_r7_is_ill_formed : ¬ (Instr.jmp 7).WellFormed := by decide
theorem test_known_vectors_are_no_unknown_trap :
    ¬ (Instr.trapUnknown 0x20#8).WellFormed ∧ ¬ (Instr.trapUnknown 0x25#8).WellFormed := by decide
theorem test_neighbours_are_well_formed :
    (Instr.jmp 6).WellFormed ∧ (Instr.trapUnknown 0x1F#8).WellFormed ∧ (Instr.trapUnknown 0x26#8).WellFormed := by decide

/-! ### Decoding: for every constructor a word written out from R62 -/

theorem test_decode_alu :
    decode 0b0001_011_001_0_00_010#16 = .addReg 3 1 2 ∧ decode 0b0001_001_000_1_00101#16 = .addImm 1 0 0b00101#5 ∧
    decode 0b0101_001_010_0_00_011#16 = .andReg 1 2 3 ∧ decode 0b0101_100_101_1_11111#16 = .andImm 4 5 0b11111#5 ∧
    decode 0b1001_010_001_111111#16 = .notR 2 1 := by decide
theorem test_decode_data_movement :
    decode 0b0010_010_000000100#16 = .ld 2 4#9 ∧ decode 0b1010_000_000000001#16 = .ldi 0 1#9 ∧
    decode 0b0110_010_001_000001#16 = .ldr 2 1 1#6 ∧ decode 0b1110_101_111111111#16 = .lea 5 0x1FF#9 ∧
    decode 0b0011_011_000001001#16 = .st 3 9#9 ∧ decode 0b1011_001_000000000#16 = .sti 1 0#9 ∧
    decode 0b0111_000_110_111111#16 = .str 0 6 0b111111#6 := by decide
theorem test_decode_control_flow :
    decode 0b0000_010_111111101#16 = .br false true false 0b111111101#9 ∧ decode 0b1100_000_010_000000#16 = .jmp 2 ∧
    decode 0b1100_000_111_000000#16 = .ret ∧ decode 0b0100_1_00000001010#16 = .jsr 10#11 ∧
    decode 0b0100_0_00_011_000000#16 = .jsrr 3 := by decide
theorem test_decode_traps :
    decode 0b1111_0000_00100000#16 = .trapGetc ∧ decode 0b1111_0000_00100001#16 = .trapOut ∧
    decode 0b1111_0000_00100010#16 = .trapPuts ∧ decode 0b1111_0000_00100011#16 = .trapIn ∧
    decode 0b1111_0000_00100100#16 = .trapPutsp ∧ decode 0b1111_0000_00100101#16 = .trapHalt ∧
    decode 0b1111_0000_00100110#16 = .trapUnknown 0x26#8 := by decide
theorem test_decode_reserved :
    decode 0b1000_000000000000#16 = .reserved8 ∧ decode 0b1101_111111111111#16 = .reservedD := by decide
/-- Ignored bits (R67): A5, A13, J9, T16, and RET with bits 11:9 set (R117). -/
theorem test_decode_ignores_unused_bits :
    decode 0x165A#16 = .addReg 3 1 2 ∧ decode 0x96C0#16 = .notR 3 3 ∧ decode 0xCE7F#16 = .jmp 1 ∧
    decode 0xFF25#16 = .trapHalt ∧ decode 0xCFC0#16 = .ret ∧ decode 0x463F#16 = .jsrr 0 := by decide
/-- The words of R72 and of the rules' examples. -/
theorem test_encode_examples :
    encode .ret = 0xC1C0#16 ∧ encode .trapHalt = 0xF025#16 ∧ encode (.notR 2 1) = 0x947F#16 ∧
    encode (.addImm 1 0 5#5) = 0x1225#16 ∧ encode (.str 0 6 0b111111#6) = 0x71BF#16 ∧
    encode (.br false true false 0b111111101#9) = 0x05FD#16 := by decide

/-! ### ALU -/

/-- R91's example. -/
theorem test_add_reg : after (one 0x1642#16 1 2 3#16 4#16) (fun t => (t.getReg 3, t.cond, t.pc)) =
    some (7#16, .pos, 0x3001#16) := by decide
/-- A4: the same register three times. -/
theorem test_add_reg_doubles : after (one 0x1241#16 1 1 0x4000#16 0x4000#16) (fun t => (t.getReg 1, t.cond)) =
    some (0x8000#16, .neg) := by decide
/-- L1-3. -/
theorem test_add_imm : after (one 0x1225#16 0 0 10#16 10#16) (fun t => (t.getReg 1, t.getReg 0, t.cond)) =
    some (15#16, 10#16, .pos) := by decide
/-- A2: the smallest immediate. -/
theorem test_add_imm_smallest : after (one 0x14B0#16 2 2 0x10#16 0x10#16) (fun t => (t.getReg 2, t.cond)) =
    some (0#16, .zero) := by decide
/-- L1-4. -/
theorem test_and_reg : after (one 0x5283#16 2 3 0b1100#16 0b1010#16) (fun t => (t.getReg 1, t.cond)) =
    some (0b1000#16, .pos) := by decide
/-- A7: imm5 0b11111 extends to 0xFFFF. -/
theorem test_and_imm : after (one 0x597F#16 5 5 0x8001#16 0x8001#16) (fun t => (t.getReg 4, t.cond)) =
    some (0x8001#16, .neg) := by decide
/-- R95's example. -/
theorem test_not : after (one 0x947F#16 1 1 0x00FF#16 0x00FF#16) (fun t => (t.getReg 2, t.cond)) =
    some (0xFF00#16, .neg) := by decide

/-! ### Data movement -/

/-- M1. -/
theorem test_ld : after (start 0x3000#16 [(0x2F01, 0x8000#16), (0x3000, 0x2500#16)] [])
    (fun t => (t.getReg 2, t.cond, t.pc)) = some (0x8000#16, .neg, 0x3001#16) := by decide
/-- M3: the address wraps up. -/
theorem test_ld_wraps : after (start 0xFF00#16 [(0x0000, 0x42#16), (0xFF00, 0x28FF#16)] [])
    (fun t => (t.getReg 4, t.cond)) = some (0x42#16, .pos) := by decide
/-- M5: a poll through LDI consumes nothing. -/
theorem test_ldi_kbsr : after (start 0x3000#16 [(0x3000, 0xAA00#16), (0x3001, 0xFE00#16)] [0x6B#8])
    (fun t => (t.getReg 5, t.cond, t.console.pending)) = some (0x8000#16, .neg, [0x6B#8]) := by decide
/-- M7: a KBDR read consumes one byte. -/
theorem test_ldi_kbdr : after (start 0x3000#16 [(0x3000, 0xAA00#16), (0x3001, 0xFE02#16)] [0x6B#8, 0x71#8])
    (fun t => (t.getReg 5, t.cond, t.console.pending)) = some (0x6B#16, .pos, [0x71#8]) := by decide
/-- M10: the address wraps down. -/
theorem test_ldr : after ((start 0x3000#16 [(0x3000, 0x6460#16), (0xFFF0, 0x1111#16)] []).setReg 1 0x10#16)
    (fun t => (t.getReg 2, t.cond)) = some (0x1111#16, .pos) := by decide
/-- M11: the base is read before the destination is written. -/
theorem test_ldr_same_register : after ((start 0x3000#16 [(0x3000, 0x6240#16)] []).setReg 1 0x5000#16)
    (fun t => (t.getReg 1, t.cond)) = some (0#16, .zero) := by decide
/-- M13: LEA sets flags from an address. -/
theorem test_lea : after (start 0x7FFF#16 [(0x7FFF, 0xE000#16)] []) (fun t => (t.getReg 0, t.cond)) =
    some (0x8000#16, .neg) := by decide
/-- M16: a store to the instruction's own cell. -/
theorem test_st_own_cell : after (one 0x37FF#16 3 3 0xBEEF#16 0xBEEF#16)
    (fun t => (t.mem.read 0x3000, t.cond, t.pc, t.ir)) = some (0xBEEF#16, .zero, 0x3001#16, 0x37FF#16) := by decide
/-- M17: the address wraps. -/
theorem test_st_wraps : after ((start 0xFF00#16 [(0xFF00, 0x36FF#16)] []).setReg 3 0x1234#16)
    (fun t => t.mem.read 0) = some 0x1234#16 := by decide
/-- R106's example. -/
theorem test_sti : after ((start 0x3000#16 [(0x3000, 0xB200#16), (0x3001, 0x5000#16)] []).setReg 1 0x42#16)
    (fun t => t.mem.read 0x5000) = some 0x42#16 := by decide
/-- M18: a store to KBSR has no effect. -/
theorem test_sti_kbsr : after ((start 0x3000#16 [(0x3000, 0xB200#16), (0x3001, 0xFE00#16)] []).setReg 1 0xAA#16)
    (fun t => t.mem) = some [(0x3000, 0xB200#16), (0x3001, 0xFE00#16)] := by decide
/-- M21: offset 2 from 0xFFFF is address 1 (C6). -/
theorem test_str : after (one 0x7042#16 0 1 0xCAFE#16 0xFFFF#16) (fun t => (t.mem.read 1, t.mem.read 0)) =
    some (0xCAFE#16, 0#16) := by decide
/-- Writing what an unlisted cell reads as removes the entry (log 3): ST of 0 over its own word. -/
theorem test_store_of_zero_removes_the_entry : after (start 0x3000#16 [(0x3000, 0x37FF#16)] []) (fun t => t.mem) =
    some [] := by decide

/-! ### Control flow -/

/-- R115's example. -/
theorem test_br_taken : after (start 0x3005#16 [(0x3005, 0x05FD#16)] []) (fun t => t.pc) = some 0x3003#16 := by decide
/-- B3 with cond Z: not taken. -/
theorem test_br_not_taken : after (start 0x3000#16 [(0x3000, 0x0805#16)] []) (fun t => t.pc) = some 0x3001#16 := by decide
/-- J9. -/
theorem test_jmp : after (one 0xCE7F#16 1 1 0x2000#16 0x2000#16) (fun t => t.pc) = some 0x2000#16 := by decide
/-- J2. -/
theorem test_ret : after (one 0xC1C0#16 7 7 0x3050#16 0x3050#16) (fun t => t.pc) = some 0x3050#16 := by decide
/-- J3. -/
theorem test_jsr : after (start 0x3000#16 [(0x3000, 0x4C00#16)] []) (fun t => (t.getReg 7, t.pc, t.cond)) =
    some (0x3001#16, 0x2C01#16, .zero) := by decide
/-- J6: JSRR R7 with the link first. -/
theorem test_jsrr_r7_link_first : after (one 0x41C0#16 7 7 0x5000#16 0x5000#16) (fun t => (t.getReg 7, t.pc)) =
    some (0x3001#16, 0x3001#16) := by decide
/-- J7: JSRR R7 with BaseR read first. -/
theorem test_jsrr_r7_base_first :
    after { one 0x41C0#16 7 7 0x5000#16 0x5000#16 with params := { params with jsrrLinkFirst := false } }
      (fun t => (t.getReg 7, t.pc)) = some (0x3001#16, 0x5000#16) := by decide

/-! ### TRAP -/

/-- T1. -/
theorem test_getc : after ((start 0x3000#16 [(0x3000, 0xF020#16)] [0x5A#8]).setReg 7 0x7777#16)
    (fun t => (t.getReg 0, t.getReg 7, t.console, t.pc)) = some (0x5A#16, 0x7777#16, typed [], 0x3001#16) := by decide
/-- T2: the hold. -/
theorem test_getc_holds : after (one 0xF020#16 0 0 0x1111#16 0x1111#16) (fun t => (t.getReg 0, t.hold, t.status)) =
    some (0x1111#16, some .getc, .running) := by decide
/-- T3: the high byte is ignored. -/
theorem test_out : after (one 0xF021#16 0 0 0x1241#16 0x1241#16) (fun t => (t.console.out, t.getReg 0)) =
    some ([0x41#8], 0x1241#16) := by decide
/-- T5. -/
theorem test_puts : after ((start 0x3000#16 [(0x3000, 0xF022#16), (0x4000, 0x141#16), (0x4001, 0x100#16), (0x4002, 0x42#16)]
    []).setReg 0 0x4000#16) (fun t => (t.console.out, t.pc)) = some ([0x41#8, 0x00#8, 0x42#8], 0x3001#16) := by decide
/-- T7: a scan that starts at KBSR. -/
theorem test_puts_from_kbsr : after ((start 0x3000#16 [(0x3000, 0xF022#16)] [0x6B#8]).setReg 0 0xFE00#16)
    (fun t => (t.console.out, t.console.pending)) = some ([0x00#8], [0x6B#8]) := by decide
/-- T13. -/
theorem test_in : after (start 0x3000#16 [(0x3000, 0xF023#16)] [0x71#8]) (fun t => (t.console.out, t.getReg 0, t.cond)) =
    some ([0x3E#8, 0x20#8, 0x71#8], 0x71#16, .zero) := by decide
/-- T14: the prompt is out before the hold. -/
theorem test_in_holds : after (one 0xF023#16 0 0 0x5555#16 0x5555#16) (fun t => (t.console.out, t.getReg 0, t.hold)) =
    some ([0x3E#8, 0x20#8], 0x5555#16, some .inRead) := by decide
/-- T11: PUTSP stops at a zero high byte. -/
theorem test_putsp_stops_at_high_byte : after ((start 0x3000#16 [(0x3000, 0xF024#16), (0x4000, 0x41#16), (0x4001, 0x43#16)]
    []).setReg 0 0x4000#16) (fun t => t.console.out) = some [0x41#8] := by decide
/-- T12. -/
theorem test_putsp : after ((start 0x3000#16 [(0x3000, 0xF024#16), (0x4000, 0x6261#16), (0x4001, 0x63#16),
    (0x4002, 0x6464#16)] []).setReg 0 0x4000#16) (fun t => t.console.out) = some [0x61#8, 0x62#8, 0x63#8] := by decide
/-- T15. -/
theorem test_halt : after (one 0xF025#16 0 7 1#16 2#16) (fun t => (t.status, t.pc, t.getReg 0, t.console.out, t.icount)) =
    some (.halted, 0x3001#16, 1#16, [], 1) := by decide
/-- T18. -/
theorem test_unknown_vector : after (start 0x3000#16 [(0x3000, 0xF026#16)] []) (fun t => (t.status, t.fault)) =
    some (.faulted, some ⟨.unknownTrapVector, 0xF026#16, 0xF#4, some 0x26#8, 0x3001#16⟩) := by decide

/-! ### Reserved opcodes, terminal states, fetch through the mapped registers, host port -/

/-- F4. -/
theorem test_reserved_8 : after (start 0x3000#16 [(0x3000, 0x80C0#16)] []) (fun t => (t.status, t.fault, t.icount)) =
    some (.faulted, some ⟨.reservedOpcode, 0x80C0#16, 0x8#4, none, 0x3001#16⟩, 1) := by decide
/-- F3: PC* wraps. -/
theorem test_reserved_d : after (start 0xFFFF#16 [(0xFFFF, 0xD000#16)] []) (fun t => t.fault) =
    some (some ⟨.reservedOpcode, 0xD000#16, 0xD#4, none, 0x0000#16⟩) := by decide
/-- F5: no step after a fault. -/
theorem test_no_step_after_fault :
    next? (step { start 0x3000#16 [(0x3000, 0x1021#16)] [] with status := .faulted }) = none := by decide
/-- X1's second step: a fetch at KBSR with input pending is opcode 0x8. -/
theorem test_fetch_at_kbsr : after (start 0xFE00#16 [] [0x78#8]) (fun t => (t.status, t.ir, t.pc, t.console.pending)) =
    some (.faulted, 0x8000#16, 0xFE01#16, [0x78#8]) := by decide
/-- X3's second step: a fetch at KBDR with no input holds, uncounted. -/
theorem test_fetch_at_kbdr_holds : after (start 0xFE02#16 [] []) (fun t => (t.hold, t.pc, t.icount)) =
    some (some .fetch, 0xFE02#16, 0) := by decide
/-- X4's second step: the byte 0x25 is a no-op. -/
theorem test_fetch_at_kbdr : after (start 0xFE02#16 [] [0x25#8]) (fun t => (t.ir, t.pc, t.console.pending)) =
    some (0x25#16, 0xFE03#16, []) := by decide
/-- M8's end: "When k arrives: x5 = 0x006B, cond P". -/
theorem test_held_load_finishes :
    after (({ start 0x3001#16 [] [] with hold := some (.load 5) } : State).supplyInput [0x6B#8])
      (fun t => (t.getReg 5, t.cond, t.hold, t.pc)) = some (0x6B#16, .pos, none, 0x3001#16) := by decide
/-- P3b's first poll: the script's first entry is empty, so `pollAvailable` answers false. -/
theorem test_poll_before_the_input_arrives :
    after { start 0x3000#16 [(0x3000, 0xA200#16), (0x3001, 0xFE00#16)] [] with
        console := { pending := [], arrivals := [[], [0x61#8]], recurring := [], out := [] } }
      (fun t => (t.getReg 1, t.console.arrivals)) = some (0#16, [[0x61#8]]) := by decide
/-- A host whose input recurs (R35: "at any time"): the script starts again when it is used up. -/
theorem test_recurring_input_arrives :
    after { start 0x3000#16 [(0x3000, 0xA200#16), (0x3001, 0xFE00#16)] [] with
        console := { pending := [], arrivals := [], recurring := [[0x61#8], []], out := [] } }
      (fun t => (t.getReg 1, t.console.pending, t.console.arrivals)) = some (0x8000#16, [0x61#8], [[]]) := by decide
/-- R129: a scan that has gone round goes on where it was, until the zero cell. -/
theorem test_scan_goes_on_after_a_round :
    after { start 0x3001#16 [(0x4000, 0x48#16), (0x4001, 0x69#16)] [] with hold := some (.putsRound 0x4000#16) }
      (fun t => (t.console.out, t.hold, t.icount)) = some ([0x48#8, 0x69#8], none, 0) := by decide
/-- RS1. -/
theorem test_load_image : (State.loadImage params (typed []) [0x30#8, 0x00#8, 0x12#8, 0x25#8, 0xF0#8, 0x25#8]).map
    (fun s => (s.pc, s.mem, s.cond)) = some (0x3000#16, [(0x3000, 0x1225#16), (0x3001, 0xF025#16)], .zero) := by decide
/-- RS2: the load wraps. -/
theorem test_load_wraps : (State.loadImage params (typed []) [0xFF#8, 0xFF#8, 0x10#8, 0x21#8, 0xF0#8, 0x25#8]).map
    (fun s => (s.pc, s.mem)) = some (0xFFFF#16, [(0x0000, 0xF025#16), (0xFFFF, 0x1021#16)]) := by decide
/-- RS4, and RS3 which is the model's reset state. -/
theorem test_load_errors : State.loadImage params (typed []) [0x30#8] = none ∧ State.loadImage params (typed []) [] = none ∧
    State.loadImage Params.default (typed []) [0x30#8, 0x00#8] = some State.reset := ⟨rfl, rfl, rfl⟩
/-- P3b's host: launched with "a" scripted to arrive after the first poll, which LDI makes at KBSR. -/
theorem test_launch_supplies_the_console :
    after (State.launch params { pending := [], arrivals := [[], [0x61#8]], recurring := [], out := [] } 0x3000#16
      [0xA200#16, 0xFE00#16]) (fun t => (t.getReg 1, t.console.pending, t.console.arrivals)) =
      some (0x0000#16, [], [[0x61#8]]) := by decide
/-- GETC with nothing pending when it starts, and a byte that comes at its read. -/
theorem test_scheduled_input_arrives_inside_the_step :
    after ((start 0x3000#16 [(0x3000, 0xF020#16)] []).scheduleInput [[0x5A#8]] []) (fun t => (t.getReg 0, t.hold)) =
      some (0x5A#16, none) := by decide
/-- The host's two functions on one word. -/
theorem test_placed_word_runs : decodeTableWord 16 0x1225 = some (.addImm 1 0 5#5) ∧
    after (State.reset.withFetchWord 16 0x1225) (fun t => (t.getReg 1, t.icount)) = some (5#16, 1) := by decide

/-! ### Witnesses: states and operands that meet the hypotheses of the statements, clause by clause -/

/-- `s.pc` on a plain cell, running, nothing held. -/
def plainStart : State := start 0x3000#16 [(0x3000, 0xE1FF#16)] []

/-- A KBDR read in a start state with `b` typed returns `b`. -/
theorem readsByte_typed (pc : Word) (m : Memory) (b : Byte) (bs : List Byte) :
    (start pc m (b :: bs)).readsByte b (start pc m bs) := ⟨bs, rfl, rfl⟩
/-- A KBDR read in a start state with nothing typed holds. -/
theorem byteHolds_typed (pc : Word) (m : Memory) : (start pc m []).byteHolds (start pc m []) := ⟨rfl, rfl⟩
/-- MemRead of a plain cell, of KBSR with and without input, and of KBDR. -/
theorem reads_plain (pc : Word) (m : Memory) (bs : List Byte) (a : Word) (h1 : a ≠ 0xFE00#16) (h2 : a ≠ 0xFE02#16) :
    (start pc m bs).reads a (m.read a.addr) (start pc m bs) := .inl ⟨h1, h2, rfl, rfl⟩
theorem reads_kbsr_ready (pc : Word) (m : Memory) (b : Byte) :
    (start pc m [b]).reads 0xFE00#16 0x8000#16 (start pc m [b]) := .inr (.inl ⟨rfl, rfl, rfl⟩)
theorem reads_kbsr_empty (pc : Word) (m : Memory) :
    (start pc m []).reads 0xFE00#16 0x0000#16 (start pc m []) := .inr (.inl ⟨rfl, rfl, rfl⟩)
theorem reads_kbdr (pc : Word) (m : Memory) (b : Byte) (v : Word) (h : v.toNat = b.toNat) :
    (start pc m [b]).reads 0xFE02#16 v (start pc m []) :=
  .inr (.inr ⟨(by decide : 0xFE02#16 ≠ 0xFE00#16), rfl, b, readsByte_typed pc m b [], h⟩)
theorem readHolds_kbdr (pc : Word) (m : Memory) : (start pc m []).readHolds 0xFE02#16 (start pc m []) :=
  ⟨(by decide : 0xFE02#16 ≠ 0xFE00#16), rfl, byteHolds_typed pc m⟩

theorem witness_DecodeInvertsEncode : (Instr.trapUnknown 0x26#8).WellFormed ∧ (Instr.jmp 6).WellFormed := by decide
theorem witness_DecodeIgnoresExactlyTheUnusedBits : (Instr.addReg 3 1 2).WellFormed ∧
    0x165A#16 &&& (Instr.addReg 3 1 2).usedBits = encode (.addReg 3 1 2) &&& (Instr.addReg 3 1 2).usedBits := by decide
theorem witness_ExtensionsCopyTheSignOrClear : 1 ≤ 5 ∧ 5 ≤ 16 ∧ sext 0b10000#5 = 0xFFF0#16 ∧ sext 0b00101#5 = 5#16 := by
  decide
theorem witness_SetccFollowsTheWrittenValue :
    (0x8000#16).getLsbD 15 = true ∧ 0x7FFF#16 ≠ 0x0000#16 ∧ (0x7FFF#16).getLsbD 15 = false := by decide
theorem witness_StepRunsTheFetchedInstruction : plainStart.status = .running ∧ plainStart.hold = none ∧
    plainStart.pc ≠ plainStart.params.kbsrAddr ∧ plainStart.pc ≠ plainStart.params.kbdrAddr := by decide
theorem witness_FetchReadsThroughTheMappedRegisters_reads :
    (start 0xFE02#16 [] [0x25#8]).status = .running ∧ (start 0xFE02#16 [] [0x25#8]).hold = none ∧
    (start 0xFE02#16 [] [0x25#8]).reads 0xFE02#16 0x25#16 (start 0xFE02#16 [] []) :=
  ⟨rfl, rfl, reads_kbdr _ _ _ _ rfl⟩
theorem witness_FetchReadsThroughTheMappedRegisters_holds :
    (start 0xFE02#16 [] []).readHolds (start 0xFE02#16 [] []).pc (start 0xFE02#16 [] []) := readHolds_kbdr _ _
theorem witness_NoStepOnceHaltedOrFaulted :
    plainStart.halt.status = .halted ∧ plainStart.reservedFault.status = .faulted := ⟨rfl, rfl⟩
theorem witness_RunningStepAlwaysAnswersAState : plainStart.status = .running := rfl
theorem plainStart_inv : plainStart.Inv where
  memory := by decide
  mappedDiffer := by decide
  faultIffFaulted := by decide
  faultRecord := fun _ h => by cases h
  holdRunning := fun h => absurd rfl h
  holdPlace := fun _ h => by cases h
theorem witness_StepKeepsTheInvariant : plainStart.Inv ∧ ∃ t, step plainStart = .next t := ⟨plainStart_inv, _, rfl⟩
theorem witness_AddRegisterModeAddsModuloWordSize : (0x165A#16).extractLsb' 12 4 = 0x1#4 ∧ (0x165A#16).getLsbD 5 = false ∧
    (3 : Reg).val = ((0x165A#16).extractLsb' 9 3).toNat ∧ (1 : Reg).val = ((0x165A#16).extractLsb' 6 3).toNat ∧
    (2 : Reg).val = ((0x165A#16).extractLsb' 0 3).toNat := by decide
theorem witness_AddImmediateModeAddsTheSignedField : (0x1FF0#16).extractLsb' 12 4 = 0x1#4 ∧ (0x1FF0#16).getLsbD 5 = true ∧
    (7 : Reg).val = ((0x1FF0#16).extractLsb' 9 3).toNat ∧ (7 : Reg).val = ((0x1FF0#16).extractLsb' 6 3).toNat := by decide
/-- LD at 0xFE01 with offset 0 reads KBDR; at 0x3000 with offset -1 its own cell. -/
theorem witness_LdLoadsFromPcPlusOffset :
    0x2FFF#16 = BitVec.ofInt 16 (plainStart.pc.toInt + (0x1FF#9).toInt) ∧
    plainStart.reads 0x2FFF#16 0x0000#16 plainStart ∧
    0xFE02#16 = BitVec.ofInt 16 ((start 0xFE02#16 [] []).pc.toInt + (0#9).toInt) ∧
    (start 0xFE02#16 [] []).readHolds 0xFE02#16 (start 0xFE02#16 [] []) :=
  ⟨by decide, reads_plain _ _ _ _ (by decide) (by decide), by decide, readHolds_kbdr _ _⟩
/-- LDI through a pointer to KBDR, with and without input, and with its pointer at KBDR. -/
theorem witness_LdiLoadsThroughAPointer :
    0x3001#16 = BitVec.ofInt 16 ((start 0x3001#16 [(0x3001, 0xFE02#16)] []).pc.toInt + (0#9).toInt) ∧
    (start 0x3001#16 [(0x3001, 0xFE02#16)] [0x6B#8]).reads 0x3001#16 0xFE02#16
      (start 0x3001#16 [(0x3001, 0xFE02#16)] [0x6B#8]) ∧
    (start 0x3001#16 [(0x3001, 0xFE02#16)] [0x6B#8]).reads 0xFE02#16 0x6B#16
      (start 0x3001#16 [(0x3001, 0xFE02#16)] []) ∧
    (start 0x3001#16 [(0x3001, 0xFE02#16)] []).reads 0x3001#16 0xFE02#16 (start 0x3001#16 [(0x3001, 0xFE02#16)] []) ∧
    (start 0x3001#16 [(0x3001, 0xFE02#16)] []).readHolds 0xFE02#16 (start 0x3001#16 [(0x3001, 0xFE02#16)] []) ∧
    0xFE02#16 = BitVec.ofInt 16 ((start 0xFE02#16 [] []).pc.toInt + (0#9).toInt) ∧
    (start 0xFE02#16 [] []).readHolds 0xFE02#16 (start 0xFE02#16 [] []) :=
  ⟨by decide, reads_plain _ _ _ _ (by decide) (by decide), reads_kbdr _ _ _ _ rfl,
    reads_plain _ _ _ _ (by decide) (by decide), readHolds_kbdr _ _, by decide, readHolds_kbdr _ _⟩
theorem witness_LdrLoadsFromBasePlusOffset :
    0xFFE0#16 = BitVec.ofInt 16 ((plainStart.getReg 1).toInt + (0b100000#6).toInt) ∧
    plainStart.reads 0xFFE0#16 0x0000#16 plainStart ∧
    0xFE02#16 = BitVec.ofInt 16 (((start 0 [] []).setReg 1 0xFE02#16).getReg 1).toInt ∧
    ((start 0 [] []).setReg 1 0xFE02#16).readHolds 0xFE02#16 ((start 0 [] []).setReg 1 0xFE02#16) :=
  ⟨by decide, reads_plain _ _ _ _ (by decide) (by decide), by decide, by decide, rfl, rfl, rfl⟩
theorem witness_canonical_memory : plainStart.mem.wf ∧ (start 0 [(0x3000, 1#16), (0xFFFF, 2#16)] []).mem.wf := by decide
theorem witness_StiStoresThroughAPointer :
    plainStart.mem.wf ∧ 0x3000#16 = BitVec.ofInt 16 (plainStart.pc.toInt + (0#9).toInt) ∧
    plainStart.reads 0x3000#16 0xE1FF#16 plainStart ∧
    0xFE02#16 = BitVec.ofInt 16 ((start 0xFE02#16 [] []).pc.toInt + (0#9).toInt) ∧
    (start 0xFE02#16 [] []).readHolds 0xFE02#16 (start 0xFE02#16 [] []) :=
  ⟨by decide, by decide, reads_plain _ _ _ _ (by decide) (by decide), by decide, readHolds_kbdr _ _⟩
/-- The two sides of `wroteCell`: a mapped address and a plain one. -/
theorem witness_MemWriteSetsOnePlainCell : plainStart.mem.wf ∧ plainStart.params.mapped 0xFE02#16 = true ∧
    plainStart.params.mapped 0xFE01#16 = false := by decide
theorem witness_StoredWordIsTheNextInstruction : plainStart.mem.wf ∧ plainStart.status = .running ∧
    plainStart.hold = none ∧ plainStart.pc ≠ plainStart.params.kbsrAddr ∧ plainStart.pc ≠ plainStart.params.kbdrAddr ∧
    ∃ t, exec (.st 3 0#9) plainStart = .next t := ⟨by decide, rfl, rfl, by decide, by decide, _, rfl⟩
theorem witness_BranchFollowsTheMask : plainStart.cond = .zero ∧ (plainStart.setcc 0x8000#16).cond = .neg ∧
    (plainStart.setcc 0x7FFF#16).cond = .pos := by decide
theorem witness_JsrrLinksAndJumpsThroughTheRegister : (6 : Reg) ≠ 7 ∧ plainStart.params.jsrrLinkFirst = true ∧
    ({ plainStart with params := { params with jsrrLinkFirst := false } } : State).params.jsrrLinkFirst = false := by decide
theorem witness_ReservedOpcodesFault : (plainStart.fetched 0x8FFF#16).ir = 0x8FFF#16 ∧
    (0x8FFF#16).extractLsb' 12 4 = 0x8#4 ∧ (plainStart.fetched 0xD000#16).ir = 0xD000#16 ∧
    (0xD000#16).extractLsb' 12 4 = 0xD#4 := by decide
theorem witness_UnknownTrapVectorsFault : (plainStart.fetched 0xF01F#16).ir = 0xF01F#16 ∧
    (0xF01F#16).extractLsb' 12 4 = 0xF#4 ∧ (0x1F#8).toNat < 0x20 ∧ 0x1F#8 = (0xF01F#16).extractLsb' 0 8 ∧
    (0xFF26#16).extractLsb' 12 4 = 0xF#4 ∧ 0x25 < (0x26#8).toNat ∧ 0x26#8 = (0xFF26#16).extractLsb' 0 8 := by decide
theorem witness_TrapDispatchesOnTheVector : (0xFA20#16).extractLsb' 12 4 = 0xF#4 ∧ 0x20#8 = (0xFA20#16).extractLsb' 0 8 ∧
    0x25#8 = (0xF025#16).extractLsb' 0 8 ∧ 0x26#8 ∉ [0x20#8, 0x21#8, 0x22#8, 0x23#8, 0x24#8, 0x25#8] := by decide
theorem witness_TrapsLeaveTheRestAlone : isTrap .trapOut = true ∧ ∃ t, exec .trapOut plainStart = .next t := ⟨rfl, _, rfl⟩
theorem witness_GetcReadsOneCharacter : (0xFF20#16).extractLsb' 12 4 = 0xF#4 ∧ (0xFF20#16).extractLsb' 0 8 = 0x20#8 ∧
    (start 0 [] [0xFF#8]).readsByte 0xFF#8 (start 0 [] []) ∧ (start 0 [] []).byteHolds (start 0 [] []) :=
  ⟨by decide, by decide, readsByte_typed _ _ _ _, byteHolds_typed _ _⟩
theorem witness_InPromptsReadsAndEchoes : ∃ s1, (start 0 [] [0x71#8]).wroteOut s1 (start 0 [] [0x71#8]).params.inPrompt ∧
    ∃ b s2, s1.readsByte b s2 := ⟨_, rfl, 0x71#8, _, [], rfl, rfl⟩
theorem witness_InPromptsReadsAndEchoes_holds : ∃ s1, (start 0 [] []).wroteOut s1 (start 0 [] []).params.inPrompt ∧
    ∃ s2, s1.byteHolds s2 := ⟨_, rfl, _, rfl, rfl⟩
/-- "AB" across the end of the space (vector T6). -/
def wrapped : State := (start 0 [(0x0000, 0x42#16), (0xFFFF, 0x41#16)] []).setReg 0 0xFFFF#16
theorem witness_PutsWritesTheString :
    (∀ k (h : k < [0x41#16, 0x42#16].length), wrapped.mem.read (wrapped.getReg 0 + BitVec.ofNat 16 k).addr =
      [0x41#16, 0x42#16][k] ∧ [0x41#16, 0x42#16][k] ≠ 0x0000#16) ∧
    wrapped.mem.read (wrapped.getReg 0 + BitVec.ofNat 16 [0x41#16, 0x42#16].length).addr = 0x0000#16 ∧
    (∀ k, k < 3 → wrapped.getReg 0 + BitVec.ofNat 16 k ≠ wrapped.params.kbsrAddr ∧
      wrapped.getReg 0 + BitVec.ofNat 16 k ≠ wrapped.params.kbdrAddr) := by decide
/-- "ab" then a cell whose low byte is 0, or one whose high byte is 0 (vectors T9, T12). -/
def packed (last : Word) : State := (start 0 [(0x4000, 0x6261#16), (0x4001, last)] []).setReg 0 0x4000#16
theorem witness_PutspWritesThePackedString :
    (∀ k (h : k < [0x6261#16].length), (packed 0x63#16).mem.read ((packed 0x63#16).getReg 0 + BitVec.ofNat 16 k).addr =
      [0x6261#16][k] ∧ [0x6261#16][k].toNat % 256 ≠ 0 ∧ [0x6261#16][k].toNat / 256 ≠ 0) ∧
    (packed 0x63#16).mem.read ((packed 0x63#16).getReg 0 + 1#16).addr = 0x63#16 ∧ (0x63#16).toNat % 256 ≠ 0 ∧
    (0x63#16).toNat / 256 = 0 ∧ (packed 0x6300#16).mem.read ((packed 0x6300#16).getReg 0 + 1#16).addr = 0x6300#16 ∧
    (0x6300#16).toNat % 256 = 0 ∧
    (∀ k, k < 2 → (packed 0x63#16).getReg 0 + BitVec.ofNat 16 k ≠ (packed 0x63#16).params.kbsrAddr ∧
      (packed 0x63#16).getReg 0 + BitVec.ofNat 16 k ≠ (packed 0x63#16).params.kbdrAddr) := by decide
/-- PUTS passes a cell and then ends at a zero one, or holds at KBDR. -/
theorem witness_PutsFollowsItsLoop : ∃ t s', wrapped.putsPasses 2 0xFFFF#16 t ∧ 2 < 65536 ∧
    t.reads (0xFFFF#16 + BitVec.ofNat 16 2) 0x0000#16 s' :=
  ⟨_, _, ⟨0x41#16, _, _, .inl ⟨by decide, by decide, rfl, rfl⟩, by decide, rfl,
      0x42#16, _, _, .inl ⟨by decide, by decide, rfl, rfl⟩, by decide, rfl, rfl⟩,
    by decide, .inl ⟨by decide, by decide, rfl, rfl⟩⟩
theorem witness_PutsFollowsItsLoop_holds : ∃ t s',
    (start 0 [(0xFE01, 0x41#16)] []).putsPasses 1 0xFE01#16 t ∧ 1 < 65536 ∧
    t.readHolds (0xFE01#16 + BitVec.ofNat 16 1) s' :=
  ⟨_, _, ⟨0x41#16, _, _, .inl ⟨by decide, by decide, rfl, rfl⟩, by decide, rfl, rfl⟩, by decide, by decide, by decide, rfl, rfl⟩
theorem witness_PutsFollowsItsLoop_goes_on : ∃ s : State, s.status = .running ∧ s.hold = some (.putsRound 0x4000#16) :=
  ⟨{ plainStart with hold := some (.putsRound 0x4000#16) }, rfl, rfl⟩

/-- A memory with a non-zero word in every cell. -/
def noZero : Memory := (List.range' 0 65536).map (fun b => (b, 0x41#16))

theorem read_range (n k a : Nat) (h : k ≤ a) (h' : a < k + n) :
    Memory.read ((List.range' k n).map (fun b => (b, 0x41#16))) a = 0x41#16 := by
  induction n generalizing k with
  | zero => omega
  | succ n ih =>
    simp only [List.range'_succ, List.map_cons, Memory.read]
    split
    · rfl
    · exact ih (k + 1) (by omega) (by omega)

/-- PUTS over a memory with no zero cell, the host typing without end. -/
def unending : State :=
  { start 0x3000#16 noZero [] with
    console := { pending := [], arrivals := [], recurring := [[0x6B#8]], out := [] }, hold := some (.putsRound 0x4000#16) }

theorem unending_unterminated : unending.unterminated := fun a _ _ h =>
  absurd ((read_range 65536 0 a.addr (Nat.zero_le _) (Nat.lt_of_lt_of_eq (Word.addr_lt a) (Nat.zero_add _).symm)).symm.trans h)
    (by decide)

theorem unending_neverRunsDry : unending.console.neverRunsDry := by
  refine ⟨by decide, by decide, ?_⟩
  decide

theorem witness_UnterminatedPutsNeverFinishes : unending.params.kbsrAddr ≠ unending.params.kbdrAddr ∧
    unending.unterminated ∧ unending.console.neverRunsDry ∧ unending.status = .running ∧
    unending.hold = some (.putsRound 0x4000#16) :=
  ⟨by decide, unending_unterminated, unending_neverRunsDry, rfl, rfl⟩

/-- While the input does not run dry, some is pending at every call. -/
theorem neverRunsDry_arrive {c : Console} (h : c.neverRunsDry) : c.arrive.neverRunsDry ∧ c.arrive.pending ≠ [] := by
  obtain ⟨h1, h2, h3⟩ := h
  unfold Console.arrive
  split
  · rename_i bs rest e
    have := h3 bs (by simp [e])
    exact ⟨⟨h1, by simp [h2, this.2], fun b hb => h3 b (by simp [e] at hb ⊢; tauto)⟩, by simp [this.1]⟩
  · rename_i bs rest e e'
    have := h3 bs (by simp [e'])
    exact ⟨⟨h1, by simp [h2, this.2], fun b hb => h3 b (by simp [e, e'] at hb ⊢; tauto)⟩, by simp [this.1]⟩
  · rename_i e'
    exact absurd e' h1

/-- Every number of cells is passed, a whole round too. -/
theorem passes_unterminated (n : Nat) (a : Word) (s : State) (hd : s.params.kbsrAddr ≠ s.params.kbdrAddr)
    (hu : s.unterminated) (hc : s.console.neverRunsDry) : ∃ t, s.putsPasses n a t := by
  induction n generalizing a s with
  | zero => exact ⟨s, rfl⟩
  | succ n ih =>
    have ⟨w, s', hr, hw, hc'⟩ : ∃ w s', s.reads a w s' ∧ w ≠ 0x0000#16 ∧ s'.console.neverRunsDry := by
      obtain ⟨⟨g1, g2, g3⟩, hp⟩ := neverRunsDry_arrive hc
      by_cases h1 : a = s.params.kbsrAddr
      · exact ⟨_, _, .inr (.inl ⟨h1, (if_neg hp).symm, rfl⟩), by decide, g1, g2, g3⟩
      by_cases h2 : a = s.params.kbdrAddr
      · obtain ⟨b, rest, e⟩ := List.exists_cons_of_ne_nil hp
        rw [e] at g2
        have hb := zext_toNat (by decide) b
        refine ⟨zext b, _, .inr (.inr ⟨h1, h2, b, ⟨rest, e, rfl⟩, hb⟩), fun h0 => g2 ?_, g1, fun h => g2 (.tail _ h), g3⟩
        have : b = 0x00#8 := BitVec.eq_of_toNat_eq (by rw [← hb, h0]; rfl)
        simp [this]
      · exact ⟨_, s, .inl ⟨h1, h2, rfl, rfl⟩, hu a h1 h2, hc⟩
    have hf := (State.reads_frame hr).1
    obtain ⟨t, ht⟩ := ih (a + 1) (s'.consoleWrite (BitVec.ofNat 8 w.toNat)) (by rw [hf]; exact hd) (by rw [hf]; exact hu) hc'
    exact ⟨t, w, s', _, hr, hw, rfl, ht⟩

theorem witness_PutsFollowsItsLoop_round : ∃ n t, n = 65536 ∧ unending.putsPasses n 0x4000#16 t := by
  obtain ⟨n, hn⟩ : ∃ n, n = 65536 := ⟨_, rfl⟩
  obtain ⟨t, ht⟩ := passes_unterminated n 0x4000#16 unending (by decide) unending_unterminated unending_neverRunsDry
  exact ⟨n, t, hn, ht⟩

/-- PUTSP passes a cell, then meets one whose low byte is 0, one whose high byte is 0, or KBDR with no input. -/
theorem witness_PutspFollowsItsLoop_low : ∃ t s', (packed 0x6300#16).putspPasses 1 0x4000#16 t ∧
    t.reads (0x4000#16 + BitVec.ofNat 16 1) 0x6300#16 s' ∧ (0x6300#16).toNat % 256 = 0 :=
  ⟨_, _, ⟨0x6261#16, _, _, .inl ⟨by decide, by decide, rfl, rfl⟩, by decide, by decide, rfl, rfl⟩,
    .inl ⟨by decide, by decide, rfl, rfl⟩, by decide⟩
theorem witness_PutspFollowsItsLoop_high : ∃ t s', (packed 0x63#16).putspPasses 1 0x4000#16 t ∧
    t.reads (0x4000#16 + BitVec.ofNat 16 1) 0x63#16 s' ∧ (0x63#16).toNat % 256 ≠ 0 ∧ (0x63#16).toNat / 256 = 0 :=
  ⟨_, _, ⟨0x6261#16, _, _, .inl ⟨by decide, by decide, rfl, rfl⟩, by decide, by decide, rfl, rfl⟩,
    .inl ⟨by decide, by decide, rfl, rfl⟩, by decide, by decide⟩
theorem witness_PutspFollowsItsLoop_holds : ∃ t s',
    (start 0 [(0xFE01, 0x6261#16)] []).putspPasses 1 0xFE01#16 t ∧ 1 < 65536 ∧
    t.readHolds (0xFE01#16 + BitVec.ofNat 16 1) s' :=
  ⟨_, _, ⟨0x6261#16, _, _, .inl ⟨by decide, by decide, rfl, rfl⟩, by decide, by decide, rfl, rfl⟩, by decide,
    by decide, by decide, rfl, rfl⟩
/-- A held state for any hold, with and without its byte. -/
theorem witness_HeldStepWaitsForInput (h : Hold) : ∃ s s' : State, s.status = .running ∧ s.hold = some h ∧ s.byteHolds s' :=
  ⟨{ start 0 [] [] with hold := some h }, _, rfl, rfl, rfl, rfl⟩
theorem witness_HeldStepWaitsForInput_waits (a : Word) : Hold.getc ≠ .putsRound a ∧ Hold.getc ≠ .putspRound a := ⟨nofun, nofun⟩
theorem witness_HeldStepFinishesWithItsByte (h : Hold) : ∃ (s s1 : State), s.status = .running ∧ s.hold = some h ∧
    { s with hold := none }.readsByte 0x6B#8 s1 ∧ s.mem.wf ∧ s1.reads 0x6B#16 0x0000#16 s1 :=
  ⟨{ start 0 [] [0x6B#8] with hold := some h }, start 0 [] [], rfl, rfl, ⟨[], rfl, rfl⟩, (by decide : Memory.wf []),
    reads_plain 0 [] [] 0x6B#16 (by decide) (by decide)⟩
/-- LDI's pointer read resumed with a byte that is KBDR's own address, a machine the parameters allow. -/
theorem witness_HeldStepFinishesWithItsByte_pointer_at_kbdr : ∃ (s s1 s2 : State), s.status = .running ∧
    s.hold = some (.loadPointer 0) ∧ { s with hold := none }.readsByte 0x6B#8 s1 ∧ s1.readHolds 0x6B#16 s2 :=
  ⟨{ start 0 [] [0x6B#8] with hold := some (.loadPointer 0), params := { params with kbdrAddr := 0x6B#16 } }, _, _, rfl, rfl,
    ⟨[], rfl, rfl⟩, by decide, rfl, rfl, rfl⟩
theorem witness_OnlyTheDestinationRegisterChanges :
    destination (.lea 5 0x1FF#9) ≠ some 4 ∧ ∃ t, exec (.lea 5 0x1FF#9) plainStart = .next t := ⟨by decide, _, rfl⟩
theorem witness_OnlyResultWritesChangeCond : setsCond (.jsr 0#11) = false ∧ ∃ t, exec (.jsr 0#11) plainStart = .next t :=
  ⟨rfl, _, rfl⟩
theorem witness_OnlyBranchReadsCond : (∀ n z p off, Instr.trapHalt ≠ .br n z p off) ∧ ∃ t, exec .trapHalt plainStart = .next t :=
  ⟨nofun, _, rfl⟩
theorem witness_OnlyControlFlowWritesPc : writesPc (.st 0 0#9) = false ∧ ∃ t, exec (.st 0 0#9) plainStart = .next t :=
  ⟨rfl, _, rfl⟩
theorem witness_OnlyStoresChangeMemory : storesCell .trapOut = false ∧ ∃ t, exec .trapOut plainStart = .next t := ⟨rfl, _, rfl⟩
theorem witness_OutputIsAppendedByFourTraps : writesConsole .trapHalt = false ∧ ∃ t, exec .trapHalt plainStart = .next t :=
  ⟨rfl, _, rfl⟩
/-- Steps that end HALTED and FAULTED, for the statements about every step. -/
theorem witness_OnlyHaltAndFaultsEndARun : after (start 0 [(0, 0xF025#16)] []) (fun t => t.status) = some .halted ∧
    after (start 0 [(0, 0x8000#16)] []) (fun t => t.status) = some .faulted ∧ plainStart.halt.status ≠ .running := by decide
theorem witness_every_step : ∃ t, step plainStart = .next t := ⟨_, rfl⟩
/-- A GETC that consumes its byte, for the statement about what is consumed. -/
theorem witness_InputIsConsumedInOrder : (∃ t, exec .trapGetc (start 0 [] [0x6B#8]) = .next t ∧ t.console.pending = []) ∧
    consoleReads .trapGetc plainStart = 1 ∧ consoleReads .trapOut plainStart = 0 := ⟨⟨_, rfl, rfl⟩, rfl, rfl⟩
/-- Two states that differ in the stored contents of KBSR's cell alone. -/
theorem witness_MappedCellsAreNeverSeen : (start 0 [] []).mem.wf ∧ (start 0 [(0xFE00, 1#16)] []).mem.wf ∧
    (start 0 [] []).sameButMappedCells (start 0 [(0xFE00, 1#16)] []) :=
  ⟨by decide, by decide, rfl, fun a h _ => by
    have h' : a.addr ≠ 0xFE00 := fun e => h (BitVec.eq_of_toNat_eq e)
    simp [start, Memory.read, Config.resetMem, h']⟩
theorem witness_LaunchLoadsTheImage : [0x1021#16, 0xF025#16].length ≤ 65536 ∧
    ∀ k, k < 2 → 0x0001#16 ≠ 0xFFFF#16 + BitVec.ofNat 16 k := by decide
theorem witness_PlacedWordIsTheNextInstruction : plainStart.mem.wf ∧ plainStart.pc ≠ plainStart.params.kbsrAddr ∧
    plainStart.pc ≠ plainStart.params.kbdrAddr := by decide

end Sys2Proof.Tests
end

section
/-!
Sign and zero extension (R10): one rule per function for the bits of its result, and the signed value `sext` keeps.
-/
namespace Sys2Proof.Machine

theorem sext_getLsbD {n k : Nat} (v : BitVec n) (hk : k < 16) :
    (sext v).getLsbD k = if k < n then v.getLsbD k else v.getLsbD (n - 1) := by
  have hbit : (sext v).getLsbD k = (decide (k < 16) && if k < n then v.getLsbD k else v.msb) :=
    BitVec.getLsbD_signExtend ..
  rw [hbit, decide_eq_true hk, Bool.true_and, BitVec.msb_eq_getLsbD_last]

theorem zext_getLsbD {n k : Nat} (v : BitVec n) (hk : k < 16) :
    (zext v).getLsbD k = if k < n then v.getLsbD k else false := by
  have hbit : (zext v).getLsbD k = (decide (k < 16) && v.getLsbD k) := BitVec.getLsbD_setWidth ..
  rw [hbit, decide_eq_true hk, Bool.true_and]
  split
  case isTrue => rfl
  case isFalse hn => exact BitVec.getLsbD_of_ge v k (Nat.le_of_not_lt hn)

theorem sext_toInt {n : Nat} (v : BitVec n) (h : n ≤ 16) : (sext v).toInt = v.toInt :=
  BitVec.toInt_signExtend_of_le h

/-- Settles O5: the bits of each extension, and the signed value of `sext`. Only the signed value needs the width to be at
most 16. -/
theorem extensionsCopyTheSignOrClear : Obligations.ExtensionsCopyTheSignOrClear :=
  fun _ v _ hn => ⟨fun _ hk => sext_getLsbD v hk, fun _ hk => zext_getLsbD v hk, sext_toInt v hn⟩

end Sys2Proof.Machine
end

section
/-!
The condition register (R24): the condition of a word by the word's value and its bit 15.
-/
namespace Sys2Proof.Machine

theorem condOf_of_signBit {v : Word} (hs : v.getLsbD 15 = true) : condOf v = .neg := by
  have h0 : v ≠ 0x0000#16 := by rintro rfl; exact absurd hs (by decide)
  rw [condOf, if_neg h0]
  exact if_pos hs

theorem condOf_of_signBit_clear {v : Word} (h0 : v ≠ 0x0000#16) (hs : v.getLsbD 15 = false) : condOf v = .pos := by
  rw [condOf, if_neg h0]
  exact if_neg (Bool.eq_false_iff.mp hs)

/-- Settles O6: `setcc` writes `condOf` of the word and no other field. -/
theorem setccFollowsTheWrittenValue : Obligations.SetccFollowsTheWrittenValue :=
  fun _ _ => ⟨fun h0 => if_pos h0, condOf_of_signBit, condOf_of_signBit_clear, rfl⟩

end Sys2Proof.Machine
end

section
/-!
How a run ends (R26). An instruction goes on with the run it found, or is HALT and halts it, or is a faulting row and
faults it; a step that resumes one only ever goes on.
-/
namespace Sys2Proof.Machine

/-- `t` stands in the same run as `s`: status, fault record, IR, count and parameters are as they were. -/
def State.sameRun (s t : State) : Prop :=
  t = { s with regs := t.regs, pc := t.pc, cond := t.cond, mem := t.mem, hold := t.hold, console := t.console }

/-- Wherever `k` answers a state, it is one in the same run. -/
def KeepsRun (k : State → Answer) : Prop := ∀ s t, k s = .next t → s.sameRun t

namespace State.sameRun

variable {s t u : State}

theorem status (h : s.sameRun t) : t.status = s.status := by rw [h]

theorem ir (h : s.sameRun t) : t.ir = s.ir := by rw [h]

theorem trans (h1 : s.sameRun t) (h2 : t.sameRun u) : s.sameRun u := by
  unfold State.sameRun
  rw [h2, h1]

theorem of_reads {a w : Word} (h : s.reads a w t) : s.sameRun t := by
  unfold State.sameRun
  rw [(State.reads_frame h).1]

theorem of_readsByte {b : Byte} (h : s.readsByte b t) : s.sameRun t := by
  unfold State.sameRun
  rw [(State.readsByte_frame h).1]

theorem of_byteHolds (h : s.byteHolds t) (hd : Hold) : s.sameRun { t with hold := some hd } := by
  unfold State.sameRun
  rw [(State.byteHolds_frame h).1]

theorem of_scanFrame {mk : Word → Hold} {mark : Hold} (h : ScanFrame mk mark s t) : s.sameRun t := by
  unfold State.sameRun
  rw [h.fields]

theorem of_memWrite (s : State) (a v : Word) : s.sameRun (s.memWrite a v) := by
  unfold State.sameRun
  rw [State.memWrite_fields]

end State.sameRun

theorem keepsRun_withByte {hd : Hold} {k : Byte → State → Answer} (hk : ∀ b, KeepsRun (k b)) :
    KeepsRun (withByte hd k) := by
  intro s t h
  rcases withByte_cases h with ⟨b, u, hr, hu⟩ | ⟨u, hr, hu⟩
  · exact (State.sameRun.of_readsByte hr).trans (hk b u t hu)
  · cases hu
    exact State.sameRun.of_byteHolds hr hd

theorem keepsRun_withRead {a : Word} {hd : Hold} {k : Word → State → Answer} (hk : ∀ w, KeepsRun (k w)) :
    KeepsRun (withRead a hd k) := by
  intro s t h
  rcases withRead_cases h with ⟨w, u, hr, hu⟩ | ⟨u, hr, hu⟩
  · exact (State.sameRun.of_reads hr).trans (hk w u t hu)
  · cases hu
    exact State.sameRun.of_byteHolds hr.2.2 hd

theorem keepsRun_finishLoad (dr : Reg) (w : Word) : KeepsRun (finishLoad dr w) := by
  rintro s _ ⟨⟩
  rfl

theorem keepsRun_loadThrough (dr : Reg) (ptr : Word) : KeepsRun (loadThrough dr ptr) :=
  keepsRun_withRead (keepsRun_finishLoad dr)

theorem keepsRun_storeThrough (sr : Reg) (ptr : Word) : KeepsRun (storeThrough sr ptr) := by
  rintro s _ ⟨⟩
  exact .of_memWrite s ptr _

theorem keepsRun_finishGetc (b : Byte) : KeepsRun (finishGetc b) := by
  rintro s _ ⟨⟩
  rfl

theorem keepsRun_finishIn (b : Byte) : KeepsRun (finishIn b) := by
  rintro s _ ⟨⟩
  rfl

theorem keepsRun_putsFrom (a : Word) : KeepsRun (putsFrom a) :=
  fun s t h => .of_scanFrame (putsLoop_frame _ a s t h)

theorem keepsRun_putspFrom (a : Word) : KeepsRun (putspFrom a) :=
  fun s t h => .of_scanFrame (putspLoop_frame _ a s t h)

theorem keepsRun_putsCell {next : Word → State → Answer} (hn : ∀ a, KeepsRun (next a)) (a w : Word) :
    KeepsRun (putsCell next a w) := by
  intro s t h
  unfold putsCell at h
  split at h
  · cases h; rfl
  · exact .trans (t := s.consoleWrite (lowByte w)) rfl (hn _ _ t h)

theorem keepsRun_putspCell {next : Word → State → Answer} (hn : ∀ a, KeepsRun (next a)) (a w : Word) :
    KeepsRun (putspCell next a w) := by
  intro s t h
  unfold putspCell at h
  split at h
  · cases h; rfl
  · split at h
    · cases h; rfl
    · exact .trans (t := (s.consoleWrite (lowByte w)).consoleWrite (highByte w)) rfl (hn _ _ t h)

/-- How an instruction ends: it goes on with the run, or is HALT and halts, or is a faulting row and faults. -/
theorem exec_cases {i : Instr} {s t : State} (h : exec i s = .next t) :
    s.sameRun t ∨ (i = .trapHalt ∧ t = s.halt) ∨
    (raisesFault i = true ∧ ∃ kind opcode vector, t = s.raiseFault kind opcode vector) := by
  cases i with
  | trapHalt => cases h; exact .inr (.inl ⟨rfl, rfl⟩)
  | reserved8 | reservedD | trapUnknown => cases h; exact .inr (.inr ⟨rfl, _, _, _, rfl⟩)
  | addReg | addImm | andReg | andImm | notR | lea | jmp | ret | jsr | jsrr | trapOut => cases h; exact .inl rfl
  | br n z p off =>
    cases h
    left
    split <;> rfl
  | st | str => cases h; exact .inl (.of_memWrite s _ _)
  | ld dr | ldr dr => exact .inl (keepsRun_withRead (keepsRun_finishLoad dr) s t h)
  | ldi dr => exact .inl (keepsRun_withRead (keepsRun_loadThrough dr) s t h)
  | sti sr => exact .inl (keepsRun_withRead (keepsRun_storeThrough sr) s t h)
  | trapGetc => exact .inl (keepsRun_withByte keepsRun_finishGetc s t h)
  | trapIn => exact .inl (.trans (t := s.consoleWriteAll s.params.inPrompt) rfl (keepsRun_withByte keepsRun_finishIn _ t h))
  | trapPuts => exact .inl (keepsRun_putsFrom _ s t h)
  | trapPutsp => exact .inl (keepsRun_putspFrom _ s t h)

theorem exec_ir {i : Instr} {s t : State} (h : exec i s = .next t) : t.ir = s.ir := by
  rcases exec_cases h with hs | ⟨-, rfl⟩ | ⟨-, _, _, _, rfl⟩
  · exact hs.ir
  · rfl
  · rfl

/-- Going on inside an instruction whose word has been fetched keeps the run. -/
theorem resume_sameRun {hd : Hold} (hf : hd ≠ .fetch) {s t : State} (h : resume hd s = .next t) : s.sameRun t := by
  refine .trans (t := { s with hold := none }) rfl ?_
  cases hd with
  | fetch => exact absurd rfl hf
  | load dr => exact keepsRun_withByte (fun b => keepsRun_finishLoad dr (zext b)) _ t h
  | loadPointer dr => exact keepsRun_withByte (fun b => keepsRun_loadThrough dr (zext b)) _ t h
  | storePointer sr => exact keepsRun_withByte (fun b => keepsRun_storeThrough sr (zext b)) _ t h
  | getc => exact keepsRun_withByte keepsRun_finishGetc _ t h
  | inRead => exact keepsRun_withByte keepsRun_finishIn _ t h
  | puts a => exact keepsRun_withByte (fun b => keepsRun_putsCell keepsRun_putsFrom a (zext b)) _ t h
  | putsp a => exact keepsRun_withByte (fun b => keepsRun_putspCell keepsRun_putspFrom a (zext b)) _ t h
  | putsRound a => exact keepsRun_putsFrom a _ t h
  | putspRound a => exact keepsRun_putspFrom a _ t h

/-- A step goes on with the run, or has its word `w` and runs it. -/
theorem step_sameRun_or_runFetched {s t : State} (h : step s = .next t) :
    s.sameRun t ∨ ∃ w u, s.sameRun u ∧ runFetched w u = .next t := by
  obtain ⟨-, ⟨-, hf⟩ | ⟨hd, -, hr⟩⟩ := step_cases h
  · rcases withRead_cases hf with ⟨w, u, hw, hu⟩ | ⟨u, hw, hu⟩
    · exact .inr ⟨w, u, .of_reads hw, hu⟩
    · cases hu
      exact .inl (.of_byteHolds hw.2.2 _)
  · by_cases hfetch : hd = .fetch
    · subst hfetch
      rcases withByte_cases hr with ⟨b, u, hb, hu⟩ | ⟨u, hb, hu⟩
      · exact .inr ⟨zext b, u, .trans (t := { s with hold := none }) rfl (.of_readsByte hb), hu⟩
      · cases hu
        exact .inl (.trans (t := { s with hold := none }) rfl (.of_byteHolds hb _))
    · exact .inl (resume_sameRun hfetch hr)

/-- How a step leaves a run: RUNNING still, or HALTED by the HALT in IR, or FAULTED by the faulting row in IR. -/
theorem step_status {s t : State} (h : step s = .next t) :
    t.status = .running ∨ (t.status = .halted ∧ decode t.ir = .trapHalt) ∨
    (t.status = .faulted ∧ raisesFault (decode t.ir) = true) := by
  have hrun : s.status = .running := (step_cases h).1
  rcases step_sameRun_or_runFetched h with hs | ⟨w, u, hu, hx⟩
  · exact .inl (hs.status.trans hrun)
  · have hir : t.ir = w := exec_ir hx
    rw [hir]
    rcases exec_cases hx with hs | ⟨hi, rfl⟩ | ⟨hi, _, _, _, rfl⟩
    · exact .inl (hs.status.trans (hu.status.trans hrun))
    · exact .inr (.inl ⟨rfl, hi⟩)
    · exact .inr (.inr ⟨rfl, hi⟩)

/-- Settles O52: the three ends of a step, and that a step starts in RUNNING only. -/
theorem onlyHaltAndFaultsEndARun : Obligations.OnlyHaltAndFaultsEndARun := by
  refine ⟨fun s t h => ⟨(step_cases h).1, fun ht => ?_, fun ht => ?_⟩, fun s hs t h => hs (step_cases h).1, rfl⟩
  · simpa [ht] using step_status h
  · simpa [ht] using step_status h

end Sys2Proof.Machine
end

section
/-!
MemWrite (R43): which addresses are mapped, and reading plain memory by word address after a write by word address.
-/
namespace Sys2Proof.Machine

theorem Params.mapped_iff (p : Params) (a : Word) : p.mapped a = true ↔ a = p.kbsrAddr ∨ a = p.kbdrAddr := by
  simp [Params.mapped]

theorem Memory.read_write_addr {m : Memory} (hm : m.wf) (a b v : Word) :
    (m.write a.addr v).read b.addr = if b = a then v else m.read b.addr := by
  simpa only [BitVec.toNat_inj] using Memory.read_write m hm a.addr b.addr v

/-- Settles O25: a mapped address leaves the state as it is, and a plain one is a write to plain memory. -/
theorem memWriteSetsOnePlainCell : Obligations.MemWriteSetsOnePlainCell := by
  intro s a v hm
  unfold State.wroteCell
  split
  case isTrue hmap => exact State.memWrite_mapped s a v ((s.params.mapped_iff a).mpr hmap)
  case isFalse hmap =>
    have hplain : s.params.mapped a = false := Bool.eq_false_iff.mpr (mt (s.params.mapped_iff a).mp hmap)
    rw [State.memWrite_plain s a v hplain]
    exact ⟨fun b => Memory.read_write_addr hm a b v, rfl⟩

end Sys2Proof.Machine
end

section
/-!
The execution loop (R80): a step needs a RUNNING state.
-/
namespace Sys2Proof.Machine

/-- Settles O9: a step that answers a state starts in RUNNING, which is neither HALTED nor FAULTED. -/
theorem noStepOnceHaltedOrFaulted : Obligations.NoStepOnceHaltedOrFaulted := by
  intro s hstopped t hstep
  have hrun : s.status = .running := (step_cases hstep).1
  rcases hstopped with hhalted | hfaulted
  · cases hrun.symm.trans hhalted
  · cases hrun.symm.trans hfaulted

end Sys2Proof.Machine
end

section
/-!
ADD (R91, R92): the decoder on a word with opcode 1, and the two sums read as sums of numbers modulo 2^16.
-/
namespace Sys2Proof.Machine

theorem getLsbD_of_opcode {w : Word} {op : BitVec 4} (h : w.extractLsb' 12 4 = op) {k : Nat} (hk : k < 4) :
    w.getLsbD (12 + k) = op.getLsbD k := by
  rw [← h, BitVec.getLsbD_extractLsb', decide_eq_true hk, Bool.true_and]

theorem regAt_eq {w : Word} {lo : Nat} {r : Reg} (h : r.val = (w.extractLsb' lo 3).toNat) : regAt w lo = r :=
  Fin.ext h.symm

theorem decode_eq_decodeAdd {w : Word} (h : w.extractLsb' 12 4 = 0x1#4) : decode w = decodeAdd w := by
  have h15 : w.getLsbD 15 = false := getLsbD_of_opcode h (k := 3) (by decide)
  have h14 : w.getLsbD 14 = false := getLsbD_of_opcode h (k := 2) (by decide)
  have h13 : w.getLsbD 13 = false := getLsbD_of_opcode h (k := 1) (by decide)
  have h12 : w.getLsbD 12 = true := getLsbD_of_opcode h (k := 0) (by decide)
  rw [decode_by_opcode, h15, h14, h13, h12]

theorem decodeAdd_of_bit5_clear {w : Word} (h5 : w.getLsbD 5 = false) :
    decodeAdd w = .addReg (regAt w 9) (regAt w 6) (regAt w 0) :=
  if_neg (Bool.eq_false_iff.mp h5)

theorem decodeAdd_of_bit5_set {w : Word} (h5 : w.getLsbD 5 = true) :
    decodeAdd w = .addImm (regAt w 9) (regAt w 6) (w.extractLsb' 0 5) :=
  if_pos h5

theorem exec_addReg (dr sr1 sr2 : Reg) (s : State) :
    exec (.addReg dr sr1 sr2) s = .next (writeResult dr (s.getReg sr1 + s.getReg sr2) s) := rfl

theorem exec_addImm (dr sr1 : Reg) (imm : BitVec 5) (s : State) :
    exec (.addImm dr sr1 imm) s = .next (writeResult dr (s.getReg sr1 + sext imm) s) := rfl

theorem ofInt_toInt_add_toInt {n : Nat} (a : Word) (v : BitVec n) (hn : n ≤ 16) :
    BitVec.ofInt 16 (a.toInt + v.toInt) = a + sext v := by
  rw [← sext_toInt v hn, BitVec.ofInt_add, BitVec.ofInt_toInt, BitVec.ofInt_toInt]

/-- Settles O15: bits 4:3 are in none of the fields the decoder reads, and word addition is the sum modulo 2^16. -/
theorem addRegisterModeAddsModuloWordSize : Obligations.AddRegisterModeAddsModuloWordSize := by
  intro w dr sr1 sr2 s hop h5 hdr hsr1 hsr2
  constructor
  · rw [decode_eq_decodeAdd hop, decodeAdd_of_bit5_clear h5, regAt_eq hdr, regAt_eq hsr1, regAt_eq hsr2]
  · refine ⟨_, exec_addReg dr sr1 sr2 s, ?_⟩
    rw [← BitVec.add_def]
    exact writeResult_wroteResult s dr _

/-- Settles O16: sign extension keeps the immediate's signed value, and word addition is the signed sum modulo 2^16. -/
theorem addImmediateModeAddsTheSignedField : Obligations.AddImmediateModeAddsTheSignedField := by
  intro w dr sr1 s hop h5 hdr hsr1
  constructor
  · rw [decode_eq_decodeAdd hop, decodeAdd_of_bit5_set h5, regAt_eq hdr, regAt_eq hsr1]
  · refine ⟨_, exec_addImm dr sr1 _ s, ?_⟩
    rw [ofInt_toInt_add_toInt _ _ (by decide)]
    exact writeResult_wroteResult s dr _

end Sys2Proof.Machine
end

section
/-!
What a trap leaves alone (R126). Every trap ends in a frame that holds all registers, `cond`, `pc` and memory; GETC and IN
end in the frame of the state whose R0 is the byte they read.
-/
namespace Sys2Proof.Machine

/-- `t` is `s` but for what a trap may change beside a result register: the console, the hold, the status, the record. -/
def State.trapFrame (s t : State) : Prop :=
  t = { s with status := t.status, fault := t.fault, hold := t.hold, console := t.console }

namespace State.trapFrame

variable {s t u : State}

theorem regs (h : s.trapFrame t) : t.regs = s.regs := by rw [h]

theorem cond (h : s.trapFrame t) : t.cond = s.cond := by rw [h]

theorem pc (h : s.trapFrame t) : t.pc = s.pc := by rw [h]

theorem mem (h : s.trapFrame t) : t.mem = s.mem := by rw [h]

theorem trans (h1 : s.trapFrame t) (h2 : t.trapFrame u) : s.trapFrame u := by
  unfold State.trapFrame
  rw [h2, h1]

theorem setReg (h : s.trapFrame t) (r : Reg) (v : Word) : (s.setReg r v).trapFrame (t.setReg r v) := by
  unfold State.trapFrame
  rw [h]
  rfl

theorem of_readsByte {b : Byte} (h : s.readsByte b t) : s.trapFrame t := by
  unfold State.trapFrame
  rw [(State.readsByte_frame h).1]

theorem of_byteHolds (h : s.byteHolds t) (hd : Hold) : s.trapFrame { t with hold := some hd } := by
  unfold State.trapFrame
  rw [(State.byteHolds_frame h).1]

theorem of_scanFrame {mk : Word → Hold} {mark : Hold} (h : ScanFrame mk mark s t) : s.trapFrame t := by
  unfold State.trapFrame
  rw [h.fields]

end State.trapFrame

/-- A trap that reads a byte holds with every register as it was, or has put the byte into R0. -/
theorem withByte_trapFrame {hd : Hold} {k : Byte → State → Answer}
    (hk : ∀ b u t, k b u = .next t → (u.setReg 0 (zext b)).trapFrame t) {s t : State} (h : withByte hd k s = .next t) :
    s.trapFrame t ∨ ∃ b : Byte, (s.setReg 0 (zext b)).trapFrame t := by
  rcases withByte_cases h with ⟨b, u, hr, hu⟩ | ⟨u, hr, hu⟩
  · exact .inr ⟨b, ((State.trapFrame.of_readsByte hr).setReg 0 (zext b)).trans (hk b u t hu)⟩
  · cases hu
    exact .inl (.of_byteHolds hr hd)

theorem finishGetc_trapFrame (b : Byte) (u t : State) (h : finishGetc b u = .next t) :
    (u.setReg 0 (zext b)).trapFrame t := by
  cases h
  rfl

theorem finishIn_trapFrame (b : Byte) (u t : State) (h : finishIn b u = .next t) :
    (u.setReg 0 (zext b)).trapFrame t := by
  cases h
  rfl

/-- How a trap ends: in its frame, or, being GETC or IN, in the frame of the state with the byte read in R0. -/
theorem exec_trap_cases {i : Instr} {s t : State} (hi : isTrap i = true) (h : exec i s = .next t) :
    s.trapFrame t ∨ ((i = .trapGetc ∨ i = .trapIn) ∧ ∃ b : Byte, (s.setReg 0 (zext b)).trapFrame t) := by
  cases i with
  | trapOut | trapHalt | trapUnknown => cases h; exact .inl rfl
  | trapPuts => exact .inl (.of_scanFrame (putsLoop_frame _ _ s t h))
  | trapPutsp => exact .inl (.of_scanFrame (putspLoop_frame _ _ s t h))
  | trapGetc => exact (withByte_trapFrame finishGetc_trapFrame h).imp_right fun hb => ⟨.inl rfl, hb⟩
  | trapIn =>
    have hprompt : s.trapFrame (s.consoleWriteAll s.params.inPrompt) := rfl
    rcases withByte_trapFrame finishIn_trapFrame h with hf | ⟨b, hf⟩
    · exact .inl (hprompt.trans hf)
    · exact .inr ⟨.inr rfl, b, (hprompt.setReg 0 (zext b)).trans hf⟩
  | _ => cases hi

/-- Settles O35: the frame holds every register, and a byte put into R0 is in no other register. -/
theorem trapsLeaveTheRestAlone : Obligations.TrapsLeaveTheRestAlone := by
  intro i s t hi h
  rcases exec_trap_cases hi h with hf | ⟨hi0, b, hf⟩
  · exact ⟨fun r _ => State.getReg_congr hf.regs r, fun _ _ => State.getReg_congr hf.regs 0, hf.cond, hf.pc, hf.mem⟩
  · refine ⟨fun r hr => ?_, fun hg hin => absurd hi0 (not_or.mpr ⟨hg, hin⟩), hf.cond, hf.pc, hf.mem⟩
    rw [State.getReg_congr hf.regs r, State.getReg_setReg_other s 0 r _ hr]

end Sys2Proof.Machine
end

section
/-!
Decoding (R60 to R69). The decoder read through the opcode field, what a word shares with the word of an instruction on the
bits that are not ignored, and the three encoding claims: a word agrees with the word of what it decodes to, the word of an
instruction decodes to it, and so does every word that agrees with it.
-/
namespace Sys2Proof

/-- The arm of the decoder for the opcode `op`. -/
def decodeRow (op : BitVec 4) (w : Word) : Instr :=
  match op[3], op[2], op[1], op[0] with
  | false, false, false, false => .br w[11] w[10] w[9] (bitsAt w 0 9)
  | false, false, false, true  => decodeAdd w
  | false, false, true,  false => .ld (regAt w 9) (bitsAt w 0 9)
  | false, false, true,  true  => .st (regAt w 9) (bitsAt w 0 9)
  | false, true,  false, false => decodeJsr w
  | false, true,  false, true  => decodeAnd w
  | false, true,  true,  false => .ldr (regAt w 9) (regAt w 6) (bitsAt w 0 6)
  | false, true,  true,  true  => .str (regAt w 9) (regAt w 6) (bitsAt w 0 6)
  | true,  false, false, false => .reserved8
  | true,  false, false, true  => .notR (regAt w 9) (regAt w 6)
  | true,  false, true,  false => .ldi (regAt w 9) (bitsAt w 0 9)
  | true,  false, true,  true  => .sti (regAt w 9) (bitsAt w 0 9)
  | true,  true,  false, false => decodeJmp w
  | true,  true,  false, true  => .reservedD
  | true,  true,  true,  false => .lea (regAt w 9) (bitsAt w 0 9)
  | true,  true,  true,  true  => decodeTrap (bitsAt w 0 8)

theorem decode_of_opcode {w : Word} {op : BitVec 4} (h : w.extractLsb' 12 4 = op) : decode w = decodeRow op w := by
  subst h
  simp only [decode, decodeRow, BitVec.getElem_extractLsb']
  rfl

/-- The opcode of an instruction's row (R62). -/
def Instr.opcode : Instr → BitVec 4
  | .br _ _ _ _ => 0x0#4
  | .addReg _ _ _ | .addImm _ _ _ => 0x1#4
  | .ld _ _ => 0x2#4
  | .st _ _ => 0x3#4
  | .jsr _ | .jsrr _ => 0x4#4
  | .andReg _ _ _ | .andImm _ _ _ => 0x5#4
  | .ldr _ _ _ => 0x6#4
  | .str _ _ _ => 0x7#4
  | .reserved8 => 0x8#4
  | .notR _ _ => 0x9#4
  | .ldi _ _ => 0xA#4
  | .sti _ _ => 0xB#4
  | .jmp _ | .ret => 0xC#4
  | .reservedD => 0xD#4
  | .lea _ _ => 0xE#4
  | .trapGetc | .trapOut | .trapPuts | .trapIn | .trapPutsp | .trapHalt | .trapUnknown _ => 0xF#4

theorem bitsAt_encode_opcode (i : Instr) : bitsAt (encode i) 12 4 = i.opcode := by
  cases i <;> simp (disch := decide) only [bitsAt, encode, BitVec.extractLsb'_append_eq_of_le] <;> rfl

theorem bitsAt_usedBits_opcode (i : Instr) : bitsAt i.usedBits 12 4 = BitVec.allOnes 4 := by
  cases i <;> rw [Instr.usedBits] <;> rfl

theorem mem_knownVectors_iff (v : Byte) : v ∈ knownVectors ↔
    v = 0x20#8 ∨ v = 0x21#8 ∨ v = 0x22#8 ∨ v = 0x23#8 ∨ v = 0x24#8 ∨ v = 0x25#8 := by
  simp only [knownVectors, List.mem_cons, List.not_mem_nil, or_false]

theorem wellFormed_trapUnknown_iff (v : Byte) : (Instr.trapUnknown v).WellFormed ↔ v ∉ knownVectors := by
  simp [Instr.WellFormed, Instr.wellFormed]

theorem toFin_regBits (r : Reg) : (regBits r).toFin = r := rfl

theorem decodeJmp_of_ne {w : Word} (h : regAt w 6 ≠ 7) : decodeJmp w = .jmp (regAt w 6) := if_neg h

theorem regAt_encode_jmp (base : Reg) : regAt (encode (.jmp base)) 6 = base := by
  simp (disch := decide) only [regAt, bitsAt, encode, BitVec.extractLsb'_append_eq_of_le,
    BitVec.extractLsb'_append_eq_of_add_le, Nat.reduceSub, BitVec.extractLsb'_eq_self, toFin_regBits]

theorem bitsAt_encode_trapUnknown (vec : Byte) : bitsAt (encode (.trapUnknown vec)) 0 8 = vec :=
  BitVec.extractLsb'_append_eq_right

/-- The opcode selects the row's arm, and the arm's fields are the operands. -/
theorem decode_encode (i : Instr) (hi : i.WellFormed) : decode (encode i) = i := by
  rw [decode_of_opcode (bitsAt_encode_opcode i)]
  cases i with
  | reserved8 | reservedD | ret | trapGetc | trapOut | trapPuts | trapIn | trapPutsp | trapHalt => rfl
  | jmp base =>
    have hne : regAt (encode (.jmp base)) 6 ≠ 7 := by
      rw [regAt_encode_jmp]
      exact bne_iff_ne.mp hi
    rw [Instr.opcode]
    exact (decodeJmp_of_ne hne).trans (congrArg Instr.jmp (regAt_encode_jmp base))
  | trapUnknown vec =>
    have hvec : vec ∉ knownVectors := (wellFormed_trapUnknown_iff vec).mp hi
    rw [Instr.opcode]
    exact (congrArg decodeTrap (bitsAt_encode_trapUnknown vec)).trans (decodeTrap_unknown hvec)
  | ld | st | ldi | sti | lea | notR | ldr | str | br | addReg | addImm | andReg | andImm | jsr | jsrr =>
    simp only [Instr.opcode, decodeRow, decodeAdd, decodeAnd, decodeJsr, encode, regAt, bitsAt,
      ← BitVec.getLsbD_eq_getElem, BitVec.getLsbD_append]
    simp (disch := decide) only [BitVec.extractLsb'_append_eq_of_le, BitVec.extractLsb'_append_eq_of_add_le,
      BitVec.extractLsb'_eq_self, Nat.reduceSub]
    simp +decide [toFin_regBits]

/-- Settles O3: the word of an instruction carries its opcode, its form and its operands. -/
theorem decodeInvertsEncode : Obligations.DecodeInvertsEncode := decode_encode

/-! ### The bits that are not ignored -/

/-- The bits of `w` that `i` does not ignore are those of the word of `i`. -/
def agreesOnUsedBits (w : Word) (i : Instr) : Prop := w &&& i.usedBits = encode i &&& i.usedBits

theorem agreesOnUsedBits_iff (w : Word) (i : Instr) : agreesOnUsedBits w i ↔
    ∀ k, k < 16 → (w.getLsbD k && i.usedBits.getLsbD k) = ((encode i).getLsbD k && i.usedBits.getLsbD k) := by
  rw [agreesOnUsedBits, word_ext_iff]
  simp only [BitVec.getLsbD_and]

theorem agreesOnUsedBits_decodeJmp (w u : Word) :
    agreesOnUsedBits w (decodeJmp u) ↔ agreesOnUsedBits w (.jmp (regAt u 6)) := by
  unfold decodeJmp
  split
  case isTrue h7 => rw [h7]; rfl
  case isFalse => rfl

theorem agreesOnUsedBits_decodeTrap (w : Word) (v : Byte) :
    agreesOnUsedBits w (decodeTrap v) ↔ agreesOnUsedBits w (.trapUnknown v) := by
  by_cases hv : v ∈ knownVectors
  · rcases (mem_knownVectors_iff v).mp hv with rfl | rfl | rfl | rfl | rfl | rfl <;> rfl
  · rw [decodeTrap_unknown hv]

/-- The decoder reads every bit that its row does not ignore: bit by bit, once the opcode, and the bit that selects the form,
are known. -/
theorem agreesOnUsedBits_decode (w : Word) : agreesOnUsedBits w (decode w) := by
  rw [decode_by_opcode]
  split
  case' h_2 => simp only [decodeAdd, ← BitVec.getLsbD_eq_getElem]; split
  case' h_5 => simp only [decodeJsr, ← BitVec.getLsbD_eq_getElem]; split
  case' h_6 => simp only [decodeAnd, ← BitVec.getLsbD_eq_getElem]; split
  case' h_13 => rw [agreesOnUsedBits_decodeJmp]
  case' h_16 => rw [agreesOnUsedBits_decodeTrap]
  all_goals
    simp only [agreesOnUsedBits_iff, forall_bits_iff, encode, Instr.usedBits, BitVec.getLsbD_append, regBits_regAt,
      getLsbD_bitsAt, *]
    simp +decide [*]

theorem agreesOnUsedBits.field {w : Word} {i : Instr} (h : agreesOnUsedBits w i) (lo len : Nat)
    (hm : bitsAt i.usedBits lo len = BitVec.allOnes len := by rw [Instr.usedBits]; rfl) :
    bitsAt w lo len = bitsAt (encode i) lo len := by
  have hf : bitsAt (w &&& i.usedBits) lo len = bitsAt (encode i &&& i.usedBits) lo len := congrArg (bitsAt · lo len) h
  unfold bitsAt at *
  simpa only [BitVec.extractLsb'_and, hm, BitVec.and_allOnes] using hf

theorem agreesOnUsedBits.eq_encode {w : Word} {i : Instr} (h : agreesOnUsedBits w i)
    (hm : i.usedBits = BitVec.allOnes 16) : w = encode i := by
  simpa only [agreesOnUsedBits, hm, BitVec.and_allOnes] using h

theorem agreesOnUsedBits.reg {w : Word} {i : Instr} (h : agreesOnUsedBits w i) (lo : Nat)
    (hm : bitsAt i.usedBits lo 3 = BitVec.allOnes 3 := by rw [Instr.usedBits]; rfl) :
    regAt w lo = regAt (encode i) lo :=
  congrArg BitVec.toFin (h.field lo 3 hm)

theorem getElem_eq_false_of_bitsAt {w : Word} {k : Nat} (hk : k < 16) (h : bitsAt w k 1 = 0#1) : w[k] = false := by
  have h0 : (bitsAt w k 1).getLsbD 0 = false := by rw [h]; rfl
  rw [← BitVec.getLsbD_eq_getElem hk]
  rwa [getLsbD_bitsAt, decide_eq_true Nat.zero_lt_one, Bool.true_and] at h0

/-- The bit that selects the form of ADD, AND and JSR is 0 in both words. -/
theorem agreesOnUsedBits.form {w : Word} {i : Instr} (h : agreesOnUsedBits w i) {k : Nat} (hk : k < 16)
    (he : bitsAt (encode i) k 1 = 0#1) (hm : bitsAt i.usedBits k 1 = BitVec.allOnes 1 := by rw [Instr.usedBits]; rfl) :
    w[k] = false ∧ (encode i)[k] = false :=
  ⟨getElem_eq_false_of_bitsAt hk ((h.field k 1 hm).trans he), getElem_eq_false_of_bitsAt hk he⟩

theorem bitsAt_encode_form : (∀ dr sr1 sr2, bitsAt (encode (.addReg dr sr1 sr2)) 5 1 = 0#1) ∧
    (∀ dr sr1 sr2, bitsAt (encode (.andReg dr sr1 sr2)) 5 1 = 0#1) ∧
    ∀ base, bitsAt (encode (.jsrr base)) 11 1 = 0#1 := by
  simp (disch := decide) only [bitsAt, encode, BitVec.extractLsb'_append_eq_of_le,
    BitVec.extractLsb'_append_eq_of_add_le, Nat.reduceSub, BitVec.extractLsb'_eq_self, implies_true, and_self]

/-- The decoder reads no ignored bit: each field it reads in the arm of `i` lies in the used bits. -/
theorem decode_of_agreesOnUsedBits {w : Word} {i : Instr} (hi : i.WellFormed) (h : agreesOnUsedBits w i) :
    decode w = i := by
  have hop : bitsAt w 12 4 = i.opcode := (h.field 12 4 (bitsAt_usedBits_opcode i)).trans (bitsAt_encode_opcode i)
  refine Eq.trans ?_ (decode_encode i hi)
  rw [decode_of_opcode hop, decode_of_opcode (bitsAt_encode_opcode i)]
  cases i with
  | addReg dr sr1 sr2 | andReg dr sr1 sr2 =>
    have hform := h.form (k := 5) (by decide) (by simp only [bitsAt_encode_form])
    have hdr := h.reg 9
    have hsr1 := h.reg 6
    have hsr2 := h.reg 0
    simp [Instr.opcode, decodeRow, decodeAdd, decodeAnd, hform, hdr, hsr1, hsr2]
  | jsrr base =>
    have hform := h.form (k := 11) (by decide) (by simp only [bitsAt_encode_form])
    have hbase := h.reg 6
    simp [Instr.opcode, decodeRow, decodeJsr, hform, hbase]
  | notR dr sr =>
    have hdr := h.reg 9
    have hsr := h.reg 6
    simp [Instr.opcode, decodeRow, hdr, hsr]
  | jmp | ret =>
    have hbase := h.reg 6
    simp [Instr.opcode, decodeRow, decodeJmp, hbase]
  | reserved8 | reservedD => rfl
  | trapGetc | trapOut | trapPuts | trapIn | trapPutsp | trapHalt | trapUnknown =>
    have hvec := h.field 0 8
    simp only [Instr.opcode]
    exact congrArg decodeTrap hvec
  | br | addImm | ld | st | jsr | andImm | ldr | str | ldi | sti | lea => rw [h.eq_encode rfl]

/-- Settles O4: the decoder reads every bit that is not ignored, and no other. -/
theorem decodeIgnoresExactlyTheUnusedBits : Obligations.DecodeIgnoresExactlyTheUnusedBits := by
  intro i w hi
  constructor
  · rintro rfl
    exact agreesOnUsedBits_decode w
  · exact decode_of_agreesOnUsedBits hi

/-! ### The row of a word -/

theorem decodeJmp_wellFormed (w : Word) : (decodeJmp w).WellFormed := by
  unfold decodeJmp
  split
  case isTrue => rfl
  case isFalse h7 => exact bne_iff_ne.mpr h7

theorem decodeTrap_wellFormed (v : Byte) : (decodeTrap v).WellFormed := by
  by_cases hv : v ∈ knownVectors
  · rcases (mem_knownVectors_iff v).mp hv with rfl | rfl | rfl | rfl | rfl | rfl <;> rfl
  · rw [decodeTrap_unknown hv]
    exact (wellFormed_trapUnknown_iff v).mpr hv

theorem decode_wellFormed (w : Word) : (decode w).WellFormed := by
  rw [decode_by_opcode]
  split
  case h_2 => unfold decodeAdd; split <;> rfl
  case h_5 => unfold decodeJsr; split <;> rfl
  case h_6 => unfold decodeAnd; split <;> rfl
  case h_13 => exact decodeJmp_wellFormed w
  case h_16 => exact decodeTrap_wellFormed _
  all_goals rfl

/-- The bits a row fixes are none of the bits it ignores. -/
theorem usedBits_and_rowMask (i : Instr) : i.usedBits &&& i.rowMask = i.rowMask := by
  cases i <;> rw [Instr.usedBits, Instr.rowMask] <;> rfl

open Laws.FixedBits in
theorem encode_and_rowMask : ∀ i : Instr, encode i &&& i.rowMask = i.rowMatch
  | .br n z p off => br n z p off
  | .addReg dr sr1 sr2 => addReg dr sr1 sr2
  | .addImm dr sr1 imm => addImm dr sr1 imm
  | .ld dr off => ld dr off
  | .st sr off => st sr off
  | .jsr off => jsr off
  | .jsrr base => jsrr base
  | .andReg dr sr1 sr2 => andReg dr sr1 sr2
  | .andImm dr sr1 imm => andImm dr sr1 imm
  | .ldr dr base off => ldr dr base off
  | .str sr base off => str sr base off
  | .reserved8 => reserved8
  | .notR dr sr => notR dr sr
  | .ldi dr off => ldi dr off
  | .sti sr off => sti sr off
  | .jmp base => jmp base
  | .reservedD => reservedD
  | .lea dr off => lea dr off
  | .trapGetc => trapGetc
  | .trapOut => trapOut
  | .trapPuts => trapPuts
  | .trapIn => trapIn
  | .trapPutsp => trapPutsp
  | .trapHalt => trapHalt
  | .trapUnknown vec => trapUnknown vec
  | .ret => ret

/-- Settles O2: a word agrees with the word of what it decodes to on the used bits, and the row's mask lies in them. -/
theorem everyWordDecodesToItsRow : Obligations.EveryWordDecodesToItsRow := by
  intro w
  refine ⟨decode_wellFormed w, ?_⟩
  have hw : w &&& (decode w).usedBits = encode (decode w) &&& (decode w).usedBits := agreesOnUsedBits_decode w
  rw [← usedBits_and_rowMask, ← BitVec.and_assoc, hw, BitVec.and_assoc, usedBits_and_rowMask, encode_and_rowMask]

/-- Settles O1: ten closed words, decoded. -/
theorem sampleWordsDecodeAsTheirBitStrings : Obligations.SampleWordsDecodeAsTheirBitStrings := by
  unfold Obligations.SampleWordsDecodeAsTheirBitStrings
  decide

end Sys2Proof
end

section
/-!
Simulation. A relation between states that differ in `cond`, the count and memory only, and that the operations keep, is kept
by every instruction, every resumed instruction and every step; that the instructions do not see a field is such a relation.
-/
namespace Sys2Proof.Machine

theorem step_of_halted {s : State} (h : s.status = .halted) : step s = .fault .halted := by
  unfold step
  rw [h]

theorem step_of_faulted {s : State} (h : s.status = .faulted) : step s = .fault .faulted := by
  unfold step
  rw [h]

/-- Settles O10: the two arms of `step` in which no instruction runs. -/
theorem terminalStatusIsNamedByTheStop : Obligations.TerminalStatusIsNamedByTheStop :=
  fun _ => ⟨step_of_halted, step_of_faulted⟩

/-- Both answers are next states, related by `R`. -/
def bothNext (R : State → State → Prop) (x y : Answer) : Prop := ∃ s t, x = .next s ∧ y = .next t ∧ R s t

/-- From related states `k` answers related next states. -/
def Respects (R : State → State → Prop) (k : State → Answer) : Prop := ∀ s t, R s t → bothNext R (k s) (k t)

/-- Related states differ in `cond`, the count and memory only, agree on every plain cell, and stay related under the same
update of any other field, of `cond` by a result, and of a cell. -/
structure Simulation (R : State → State → Prop) : Prop where
  fields : ∀ {s t}, R s t → ∃ c n m, t = { s with cond := c, icount := n, mem := m }
  cells : ∀ {s t}, R s t → ∀ a : Word, a ≠ s.params.kbsrAddr → a ≠ s.params.kbdrAddr →
    s.mem.read a.addr = t.mem.read a.addr
  update : ∀ {s t}, R s t → ∀ regs pc status fault hold console,
    R { s with regs := regs, pc := pc, status := status, fault := fault, hold := hold, console := console }
      { t with regs := regs, pc := pc, status := status, fault := fault, hold := hold, console := console }
  setcc : ∀ {s t}, R s t → ∀ v, R (s.setcc v) (t.setcc v)
  memWrite : ∀ {s t}, R s t → ∀ a v, R (s.memWrite a v) (t.memWrite a v)

section

variable {R : State → State → Prop} (hR : Simulation R)

include hR

theorem Simulation.withConsole {s t : State} (h : R s t) (c : Console) :
    R { s with console := c } { t with console := c } := by
  obtain ⟨_, _, _, rfl⟩ := hR.fields h
  exact hR.update h _ _ _ _ _ c

theorem respects_withByte {hd : Hold} {k : Byte → State → Answer} (hk : ∀ b, Respects R (k b)) :
    Respects R (withByte hd k) := by
  intro s t h
  have hnow : t.consoleNow = s.consoleNow := by
    obtain ⟨_, _, _, rfl⟩ := hR.fields h
    rfl
  rcases readsByte_or_byteHolds s with ⟨b, u, rest, hp, rfl⟩ | ⟨u, hp, rfl⟩
  · rw [withByte_of_readsByte ⟨rest, hp, rfl⟩, withByte_of_readsByte (s := t) ⟨rest, hnow ▸ hp, rfl⟩, hnow]
    exact hk b _ _ (hR.withConsole h _)
  · rw [withByte_of_byteHolds ⟨hp, rfl⟩, withByte_of_byteHolds (s := t) ⟨hnow ▸ hp, rfl⟩, hnow]
    obtain ⟨_, _, _, rfl⟩ := hR.fields h
    exact ⟨_, _, rfl, rfl, hR.update h _ _ _ _ _ _⟩

theorem respects_withRead {a : Word} {hd : Hold} {k : Word → State → Answer} (hk : ∀ w, Respects R (k w)) :
    Respects R (withRead a hd k) := by
  intro s t h
  have hbyte := respects_withByte hR (hd := hd) (fun b => hk (zext b)) s t h
  have hcell := hR.cells h a
  obtain ⟨_, _, _, rfl⟩ := hR.fields h
  unfold withRead
  split_ifs with hkbsr hkbdr
  · exact hk _ _ _ (hR.withConsole h _)
  · exact hbyte
  · rw [hcell hkbsr hkbdr]
    exact hk _ _ _ h

theorem respects_finishLoad (dr : Reg) (w : Word) : Respects R (finishLoad dr w) := by
  intro s t h
  obtain ⟨_, _, _, rfl⟩ := hR.fields h
  exact ⟨_, _, rfl, rfl, hR.setcc (hR.update h _ _ _ _ _ _) w⟩

theorem respects_loadThrough (dr : Reg) (ptr : Word) : Respects R (loadThrough dr ptr) :=
  respects_withRead hR (respects_finishLoad hR dr)

theorem respects_storeThrough (sr : Reg) (ptr : Word) : Respects R (storeThrough sr ptr) := by
  intro s t h
  refine ⟨_, _, rfl, rfl, ?_⟩
  have hw := hR.memWrite h ptr (s.getReg sr)
  obtain ⟨_, _, _, rfl⟩ := hR.fields h
  exact hw

theorem respects_finishGetc (b : Byte) : Respects R (finishGetc b) := by
  intro s t h
  obtain ⟨_, _, _, rfl⟩ := hR.fields h
  exact ⟨_, _, rfl, rfl, hR.update h _ _ _ _ _ _⟩

theorem respects_finishIn (b : Byte) : Respects R (finishIn b) := by
  intro s t h
  obtain ⟨_, _, _, rfl⟩ := hR.fields h
  exact ⟨_, _, rfl, rfl, hR.update h _ _ _ _ _ _⟩

theorem Simulation.consoleWrite {s t : State} (h : R s t) (b : Byte) : R (s.consoleWrite b) (t.consoleWrite b) := by
  obtain ⟨_, _, _, rfl⟩ := hR.fields h
  exact hR.withConsole h _

theorem respects_putsCell {next : Word → State → Answer} (hn : ∀ a, Respects R (next a)) (a w : Word) :
    Respects R (putsCell next a w) := by
  intro s t h
  unfold putsCell
  split
  · exact ⟨s, t, rfl, rfl, h⟩
  · exact hn _ _ _ (hR.consoleWrite h _)

theorem respects_putsLoop (n : Nat) (a : Word) : Respects R (putsLoop n a) := by
  induction n generalizing a with
  | zero =>
    intro s t h
    obtain ⟨_, _, _, rfl⟩ := hR.fields h
    exact ⟨_, _, rfl, rfl, hR.update h _ _ _ _ _ _⟩
  | succ n ih => exact respects_withRead hR (fun w => respects_putsCell hR ih a w)

theorem respects_putspCell {next : Word → State → Answer} (hn : ∀ a, Respects R (next a)) (a w : Word) :
    Respects R (putspCell next a w) := by
  intro s t h
  have hlow := hR.consoleWrite h (lowByte w)
  unfold putspCell
  split_ifs
  · exact ⟨s, t, rfl, rfl, h⟩
  · exact ⟨_, _, rfl, rfl, hlow⟩
  · exact hn _ _ _ (hR.consoleWrite hlow _)

theorem respects_putspLoop (n : Nat) (a : Word) : Respects R (putspLoop n a) := by
  induction n generalizing a with
  | zero =>
    intro s t h
    obtain ⟨_, _, _, rfl⟩ := hR.fields h
    exact ⟨_, _, rfl, rfl, hR.update h _ _ _ _ _ _⟩
  | succ n ih => exact respects_withRead hR (fun w => respects_putspCell hR ih a w)

/-- Every instruction keeps a simulation; BR does where the related states have one `cond`. -/
theorem exec_simulation {s t : State} (h : R s t) (i : Instr)
    (hbr : (∃ n z p off, i = .br n z p off) → s.cond = t.cond) : bothNext R (exec i s) (exec i t) := by
  have hmem := hR.memWrite h
  obtain ⟨_, _, _, rfl⟩ := hR.fields h
  cases i with
  | br n z p off =>
    obtain rfl := hbr ⟨n, z, p, off, rfl⟩
    refine ⟨_, _, rfl, rfl, ?_⟩
    dsimp only
    split
    · exact hR.update h _ _ _ _ _ _
    · exact h
  | addReg | addImm | andReg | andImm | notR | lea =>
    exact ⟨_, _, rfl, rfl, hR.setcc (hR.update h _ _ _ _ _ _) _⟩
  | jmp | ret | jsr | trapOut | trapHalt | reserved8 | reservedD | trapUnknown =>
    exact ⟨_, _, rfl, rfl, hR.update h _ _ _ _ _ _⟩
  | jsrr base =>
    refine ⟨_, _, rfl, rfl, ?_⟩
    dsimp only
    split <;> exact hR.update h _ _ _ _ _ _
  | st | str => exact ⟨_, _, rfl, rfl, hmem _ _⟩
  | ld dr | ldr dr => exact respects_withRead hR (respects_finishLoad hR dr) _ _ h
  | ldi dr => exact respects_withRead hR (respects_loadThrough hR dr) _ _ h
  | sti sr => exact respects_withRead hR (respects_storeThrough hR sr) _ _ h
  | trapGetc => exact respects_withByte hR (respects_finishGetc hR) _ _ h
  | trapIn => exact respects_withByte hR (respects_finishIn hR) _ _ (hR.withConsole h _)
  | trapPuts => exact respects_putsLoop hR _ _ _ _ h
  | trapPutsp => exact respects_putspLoop hR _ _ _ _ h

/-- So does every resumed instruction and every step, where running a fetched word does. -/
theorem resume_simulation (hf : ∀ w, Respects R (runFetched w)) {s t : State} (h : R s t) (hd : Hold) :
    bothNext R (resume hd s) (resume hd t) := by
  have hfree : R { s with hold := none } { t with hold := none } := by
    obtain ⟨_, _, _, rfl⟩ := hR.fields h
    exact hR.update h _ _ _ _ _ _
  cases hd with
  | fetch => exact respects_withByte hR (fun b => hf (zext b)) _ _ hfree
  | load dr => exact respects_withByte hR (fun b => respects_finishLoad hR dr (zext b)) _ _ hfree
  | loadPointer dr => exact respects_withByte hR (fun b => respects_loadThrough hR dr (zext b)) _ _ hfree
  | storePointer sr => exact respects_withByte hR (fun b => respects_storeThrough hR sr (zext b)) _ _ hfree
  | getc => exact respects_withByte hR (respects_finishGetc hR) _ _ hfree
  | inRead => exact respects_withByte hR (respects_finishIn hR) _ _ hfree
  | puts a =>
    exact respects_withByte hR (fun b => respects_putsCell hR (respects_putsLoop hR _) a (zext b)) _ _ hfree
  | putsp a =>
    exact respects_withByte hR (fun b => respects_putspCell hR (respects_putspLoop hR _) a (zext b)) _ _ hfree
  | putsRound a => exact respects_putsLoop hR _ a _ _ hfree
  | putspRound a => exact respects_putspLoop hR _ a _ _ hfree

theorem step_simulation (hf : ∀ w, Respects R (runFetched w)) {s t : State} (h : R s t) (hrun : s.status = .running) :
    bothNext R (step s) (step t) := by
  have hrun' : t.status = .running := by
    obtain ⟨_, _, _, rfl⟩ := hR.fields h
    exact hrun
  have hhold : t.hold = s.hold := by
    obtain ⟨_, _, _, rfl⟩ := hR.fields h
    rfl
  have hpc : t.pc = s.pc := by
    obtain ⟨_, _, _, rfl⟩ := hR.fields h
    rfl
  cases hs : s.hold with
  | none =>
    rw [step_of_none hrun hs, step_of_none hrun' (hhold.trans hs), fetchAndRun, fetchAndRun, hpc]
    exact respects_withRead hR hf s t h
  | some hd =>
    rw [step_of_hold hrun hs, step_of_hold hrun' (hhold.trans hs)]
    exact resume_simulation hR hf h hd

end

/-! ### Equality: every instruction and every running step answers a state -/

theorem simulation_eq : Simulation Eq where
  fields := by rintro s _ rfl; exact ⟨_, _, _, rfl⟩
  cells := by rintro s _ rfl a _ _; rfl
  update := by rintro s _ rfl _ _ _ _ _ _; rfl
  setcc := by rintro s _ rfl v; rfl
  memWrite := by rintro s _ rfl a v; rfl

theorem respects_eq_runFetched (w : Word) : Respects Eq (runFetched w) := by
  rintro s _ rfl
  exact exec_simulation simulation_eq rfl (decode w) (fun _ => rfl)

/-- Settles O11: a running step is related to itself, so it answers a next state. -/
theorem runningStepAlwaysAnswersAState : Obligations.RunningStepAlwaysAnswersAState := by
  intro s hrun
  obtain ⟨t, _, ht, -⟩ := step_simulation simulation_eq respects_eq_runFetched rfl hrun
  exact ⟨t, ht⟩

/-! ### The count -/

theorem simulation_icount (n : Nat) : Simulation (fun s t => t = { s with icount := n }) where
  fields := by rintro s _ rfl; exact ⟨_, _, _, rfl⟩
  cells := by rintro s _ rfl a _ _; rfl
  update := by rintro s _ rfl _ _ _ _ _ _; rfl
  setcc := by rintro s _ rfl v; rfl
  memWrite := by
    rintro s _ rfl a v
    unfold State.memWrite
    dsimp only
    split <;> rfl

/-- Settles O56: two states that differ in the count alone stay so. -/
theorem noInstructionReadsTheCount : Obligations.NoInstructionReadsTheCount := by
  intro i s n
  obtain ⟨u, v, hu, hv, rfl⟩ := exec_simulation (simulation_icount n) (s := s) rfl i (fun _ => rfl)
  rw [hu, hv]
  rfl

/-! ### The condition register -/

/-- `t` is `s` but for `cond`, which is the same, or `c` in `s` and `c'` in `t`. -/
def State.sameButCond (c c' : Cond) (s t : State) : Prop :=
  ∃ d, t = { s with cond := d } ∧ (d = s.cond ∨ (d = c' ∧ s.cond = c))

theorem simulation_sameButCond (c c' : Cond) : Simulation (State.sameButCond c c') where
  fields := by rintro s _ ⟨d, rfl, -⟩; exact ⟨_, _, _, rfl⟩
  cells := by rintro s _ ⟨d, rfl, -⟩ a _ _; rfl
  update := by rintro s _ ⟨d, rfl, hd⟩ _ _ _ _ _ _; exact ⟨d, rfl, hd⟩
  setcc := by rintro s _ ⟨d, rfl, -⟩ v; exact ⟨condOf v, rfl, .inl rfl⟩
  memWrite := by
    rintro s _ ⟨d, rfl, hd⟩ a v
    unfold State.memWrite
    dsimp only
    split <;> exact ⟨d, rfl, hd⟩

/-- Settles O48: two states that differ in `cond` alone stay so, until a result sets it in both. -/
theorem onlyBranchReadsCond : Obligations.OnlyBranchReadsCond := by
  intro i s t c hbr h
  have hrel : s.sameButCond s.cond c { s with cond := c } := ⟨c, rfl, .inr ⟨rfl, rfl⟩⟩
  obtain ⟨u, v, hu, hv, d, rfl, hd⟩ := exec_simulation (simulation_sameButCond s.cond c) hrel i
    (fun ⟨n, z, p, off, hi⟩ => absurd hi (hbr n z p off))
  cases h.symm.trans hu
  exact ⟨d, hv, hd⟩

/-! ### The mapped cells -/

/-- Canonical memories that agree on the plain cells, in states that are otherwise the same. -/
structure State.unseenDifference (s t : State) : Prop where
  wfLeft : s.mem.wf
  wfRight : t.mem.wf
  same : s.sameButMappedCells t

theorem State.unseenDifference.memWrite {s t : State} (h : s.unseenDifference t) (a v : Word) :
    (s.memWrite a v).unseenDifference (t.memWrite a v) := by
  have hparams : t.params = s.params := by rw [h.same.fields]
  cases hmap : s.params.mapped a with
  | true => rwa [State.memWrite_mapped s a v hmap, State.memWrite_mapped t a v (by rw [hparams, hmap])]
  | false =>
    refine ⟨State.memWrite_wf h.wfLeft a v, State.memWrite_wf h.wfRight a v, ?_⟩
    rw [State.memWrite_plain s a v hmap, State.memWrite_plain t a v (by rw [hparams, hmap])]
    refine ⟨by rw [h.same.fields], fun b hkbsr hkbdr => ?_⟩
    dsimp only
    rw [Memory.read_write_addr h.wfLeft, Memory.read_write_addr h.wfRight, h.same.cells b hkbsr hkbdr]

theorem simulation_unseenDifference : Simulation State.unseenDifference where
  fields := fun h => ⟨_, _, _, h.same.fields⟩
  cells := fun h => h.same.cells
  update := fun h _ _ _ _ _ _ => ⟨h.wfLeft, h.wfRight, ⟨by rw [h.same.fields], h.same.cells⟩⟩
  setcc := fun h _ => ⟨h.wfLeft, h.wfRight, ⟨by rw [h.same.fields]; rfl, h.same.cells⟩⟩
  memWrite := fun h => h.memWrite

theorem respects_unseenDifference_runFetched (w : Word) : Respects State.unseenDifference (runFetched w) := by
  intro s t h
  have hfetched : (s.fetched w).unseenDifference (t.fetched w) :=
    ⟨h.wfLeft, h.wfRight, ⟨by rw [h.same.fields]; rfl, h.same.cells⟩⟩
  exact exec_simulation simulation_unseenDifference hfetched (decode w) (fun _ => by rw [hfetched.same.fields])

/-- Settles O57: the difference is one that no instruction sees and every step keeps. -/
theorem mappedCellsAreNeverSeen : Obligations.MappedCellsAreNeverSeen := by
  intro s t hs ht h
  have hstatus : t.status = s.status := by rw [h.fields]
  cases hrun : s.status with
  | running =>
    obtain ⟨u, v, hu, hv, huv⟩ :=
      step_simulation simulation_unseenDifference respects_unseenDifference_runFetched ⟨hs, ht, h⟩ hrun
    rw [hu, hv]
    exact huv.same
  | halted =>
    rw [step_of_halted hrun, step_of_halted (hstatus.trans hrun)]
    rfl
  | faulted =>
    rw [step_of_faulted hrun, step_of_faulted (hstatus.trans hrun)]
    rfl

end Sys2Proof.Machine
end

section
/-!
What an instruction does, said once: some console activity, which may end in a hold, and then at most one write, of the kind
its row allows. What an instruction, a resumed instruction and a step leave unchanged is read off that.
-/
namespace Sys2Proof.Machine

theorem Hold.consistent_congr {h : Hold} (hf : h ≠ .fetch) {s t : State} (hp : t.params = s.params)
    (hc : h.consistent s) : h.consistent t := by
  cases h with
  | fetch => exact absurd rfl hf
  | puts a | putsp a => exact hc.trans (congrArg Params.kbdrAddr hp.symm)
  | putspRound => exact hc
  | load | loadPointer | storePointer | getc | inRead | putsRound => trivial

/-- Between `s` and `t` the console alone was used: output appended, and only where `out` allows it, at most `n` bytes
consumed; the hold is as it was, or one inside an instruction, at the place where that instruction can hold. -/
structure ConsoleUse (out : Bool) (n : Nat) (s t : State) : Prop where
  fields : t = { s with console := t.console, hold := t.hold }
  output : ∃ bs, t.console.out = s.console.out ++ bs ∧ (out = false → bs = [])
  holdAt : t.hold = s.hold ∨ ∃ h, t.hold = some h ∧ h ≠ .fetch ∧ h.consistent s
  input : ∃ used, s.consumed t used ∧ used.length ≤ n

namespace ConsoleUse

variable {out : Bool} {n m : Nat} {s t u : State}

theorem params (h : ConsoleUse out n s t) : t.params = s.params := by rw [h.fields]

theorem refl (s : State) : ConsoleUse out n s s :=
  ⟨rfl, ⟨[], by simp, fun _ => rfl⟩, .inl rfl, ⟨[], State.consumed_of_console rfl, Nat.zero_le n⟩⟩

theorem trans (h1 : ConsoleUse out n s t) (ht : t.hold = s.hold) (h2 : ConsoleUse out m t u) :
    ConsoleUse out (n + m) s u := by
  obtain ⟨bs, hbs, hbs0⟩ := h1.output
  obtain ⟨cs, hcs, hcs0⟩ := h2.output
  obtain ⟨us, hus, husn⟩ := h1.input
  obtain ⟨vs, hvs, hvsm⟩ := h2.input
  refine ⟨?_, ⟨bs ++ cs, ?_, fun ho => ?_⟩, ?_, ⟨us ++ vs, State.consumed_trans hus hvs, ?_⟩⟩
  · rw [h2.fields, h1.fields]
  · rw [hcs, hbs, List.append_assoc]
  · rw [hbs0 ho, hcs0 ho, List.append_nil]
  · rcases h2.holdAt with hu | ⟨h, hu, hf, hc⟩
    · exact .inl (hu.trans ht)
    · exact .inr ⟨h, hu, hf, Hold.consistent_congr hf h1.params.symm hc⟩
  · rw [List.length_append]
    omega

theorem mono (h : ConsoleUse out n s t) (hnm : n ≤ m) : ConsoleUse out m s t := by
  obtain ⟨us, hus, husn⟩ := h.input
  exact ⟨h.fields, h.output, h.holdAt, us, hus, husn.trans hnm⟩

theorem of_readsByte {b : Byte} (h : s.readsByte b t) : ConsoleUse out 1 s t := by
  obtain ⟨hf, ho⟩ := State.readsByte_frame h
  have hh : t.hold = s.hold := by rw [hf]
  refine ⟨by rw [hh]; exact hf, ⟨[], by simp [ho], fun _ => rfl⟩, .inl hh, ?_⟩
  exact ⟨[b], State.readsByte_consumed h, Nat.le_refl 1⟩

theorem of_reads {a w : Word} (h : s.reads a w t) : ConsoleUse out (s.kbdrReads a) s t := by
  obtain ⟨hf, ho⟩ := State.reads_frame h
  have hh : t.hold = s.hold := by rw [hf]
  exact ⟨by rw [hh]; exact hf, ⟨[], by simp [ho], fun _ => rfl⟩, .inl hh, State.reads_consumed h⟩

theorem of_byteHolds (h : s.byteHolds t) {hd : Hold} (hf : hd ≠ .fetch) (hc : hd.consistent s) :
    ConsoleUse out n s { t with hold := some hd } := by
  obtain ⟨hfields, ho⟩ := State.byteHolds_frame h
  refine ⟨by rw [hfields], ⟨[], by simp [ho], fun _ => rfl⟩, .inr ⟨hd, rfl, hf, hc⟩, [], ?_, Nat.zero_le n⟩
  exact State.consumed_congr (State.byteHolds_consumed h) rfl rfl rfl

theorem of_consoleWriteAll (s : State) (bs : List Byte) : ConsoleUse true n s (s.consoleWriteAll bs) :=
  ⟨rfl, ⟨bs, rfl, nofun⟩, .inl rfl, [], ⟨0, rfl, rfl, rfl⟩, Nat.zero_le n⟩

theorem of_consoleWrite (s : State) (b : Byte) : ConsoleUse true n s (s.consoleWrite b) := of_consoleWriteAll s [b]

end ConsoleUse

/-! ### The scans -/

theorem putsFrom_consoleUse {a : Word} {s t : State} (h : putsFrom a s = .next t) : ConsoleUse true 1 s t := by
  have hframe := putsLoop_frame scanRound a s t h
  obtain ⟨bs, hbs⟩ := hframe.output
  obtain ⟨us, hus, husn⟩ := putsLoop_consumed scanRound a s t (Nat.le_refl _) h
  refine ⟨hframe.fields, ⟨bs, hbs, nofun⟩, ?_, us, hus, husn.trans (by split <;> omega)⟩
  rcases hframe.holdAt with hh | hh | hh
  · exact .inl hh
  · exact .inr ⟨_, hh, nofun, rfl⟩
  · exact .inr ⟨_, hh, nofun, trivial⟩

theorem putspFrom_consoleUse {a : Word} {s t : State} (h : putspFrom a s = .next t) : ConsoleUse true 1 s t := by
  have hframe := putspLoop_frame scanRound a s t h
  obtain ⟨bs, hbs⟩ := hframe.output
  refine ⟨hframe.fields, ⟨bs, hbs, nofun⟩, ?_, putspLoop_consumed scanRound a s t h⟩
  rcases putspLoop_ends scanRound a s t (BitVec.isLt _) h with hh | hh
  · exact .inl hh
  · exact .inr ⟨_, hh, nofun, rfl⟩

theorem putsCell_consoleUse {a w : Word} {s t : State} (h : putsCell putsFrom a w s = .next t) :
    ConsoleUse true 1 s t := by
  unfold putsCell at h
  split at h
  · cases h; exact .refl s
  · exact (ConsoleUse.of_consoleWrite (n := 0) s _).trans rfl (putsFrom_consoleUse h)

theorem putspCell_consoleUse {a w : Word} {s t : State} (h : putspCell putspFrom a w s = .next t) :
    ConsoleUse true 1 s t := by
  have hlow := ConsoleUse.of_consoleWrite (n := 0) s (lowByte w)
  unfold putspCell at h
  split_ifs at h
  · cases h; exact .refl s
  · cases h; exact hlow.mono (Nat.zero_le 1)
  · exact (hlow.trans rfl (.of_consoleWrite (n := 0) _ _)).trans rfl (putspFrom_consoleUse h)

/-! ### One instruction -/

/-- `t` is `s` after at most one write of a kind that the row of `i` allows. -/
inductive WritesAsRow (i : Instr) (s : State) : State → Prop where
  | nothing : WritesAsRow i s s
  | result (dr : Reg) (v : Word) (hd : destination i = some dr) (hc : setsCond i = true) :
      WritesAsRow i s (writeResult dr v s)
  | reg (r : Reg) (v : Word) (hd : destination i = some r) : WritesAsRow i s (s.setReg r v)
  | cell (a v : Word) (hm : storesCell i = true) : WritesAsRow i s (s.memWrite a v)
  | jump (target : Word) (hp : writesPc i = true) : WritesAsRow i s (s.jumpTo target)
  | linkedJump (target : Word) (hp : writesPc i = true) (hd : destination i = some linkReg) :
      WritesAsRow i s (s.link.jumpTo target)
  | stop (status : RunStatus) (fault : Option FaultRecord) : WritesAsRow i s { s with status := status, fault := fault }

/-- `t` is `s` after console activity and then a write of the row of `i`. -/
def Effect (i : Instr) (out : Bool) (n : Nat) (s t : State) : Prop :=
  ∃ u, ConsoleUse out n s u ∧ WritesAsRow i u t

variable {i : Instr} {out : Bool} {n : Nat} {s t : State}

theorem Effect.after {m : Nat} {u : State} (h1 : ConsoleUse out n s u) (hu : u.hold = s.hold) (h2 : Effect i out m u t) :
    Effect i out (n + m) s t := by
  obtain ⟨v, hv, hw⟩ := h2
  exact ⟨v, h1.trans hu hv, hw⟩

theorem Effect.of_consoleUse (h : ConsoleUse out n s t) : Effect i out n s t := ⟨t, h, .nothing⟩

theorem Effect.of_writes (h : WritesAsRow i s t) : Effect i out n s t := ⟨s, .refl s, h⟩

theorem withByte_effect {hd : Hold} {k : Byte → State → Answer} (hf : hd ≠ .fetch) (hc : hd.consistent s)
    (hk : ∀ b u, k b u = .next t → Effect i out n u t) (h : withByte hd k s = .next t) :
    Effect i out (1 + n) s t := by
  rcases withByte_cases h with ⟨b, u, hr, hu⟩ | ⟨u, hr, hu⟩
  · exact .after (.of_readsByte hr) (by rw [(State.readsByte_frame hr).1]) (hk b u hu)
  · cases hu
    exact .of_consoleUse (.of_byteHolds hr hf hc)

theorem withRead_effect {a : Word} {hd : Hold} {k : Word → State → Answer} (hf : hd ≠ .fetch)
    (hc : a = s.params.kbdrAddr → hd.consistent s)
    (hk : ∀ w u, s.reads a w u → k w u = .next t → Effect i out n u t) (h : withRead a hd k s = .next t) :
    Effect i out (s.kbdrReads a + n) s t := by
  rcases withRead_cases h with ⟨w, u, hr, hu⟩ | ⟨u, ⟨-, ha, hb⟩, hu⟩
  · exact .after (.of_reads hr) (by rw [(State.reads_frame hr).1]) (hk w u hr hu)
  · cases hu
    exact .of_consoleUse (.of_byteHolds hb hf (hc ha))

theorem kbdrReads_le (s : State) (a : Word) : s.kbdrReads a ≤ 1 := by
  unfold State.kbdrReads
  split <;> omega

section

variable (hc : setsCond i = true) {dr : Reg} (hd : destination i = some dr)

include hc hd

theorem finishLoad_effect {w : Word} (h : finishLoad dr w s = .next t) : Effect i out 0 s t := by
  cases h
  exact .of_writes (.result dr w hd hc)

theorem loadThrough_effect {ptr : Word} (hn : s.kbdrReads ptr ≤ n) (h : loadThrough dr ptr s = .next t) :
    Effect i out n s t := by
  obtain ⟨u, hu, hw⟩ := withRead_effect (hd := .load dr) (k := finishLoad dr) nofun (fun _ => trivial)
    (fun _ _ _ => finishLoad_effect hc hd) h
  exact ⟨u, hu.mono hn, hw⟩

end

theorem finishGetc_effect (hd : destination i = some 0) {b : Byte} (h : finishGetc b s = .next t) :
    Effect i out 0 s t := by
  cases h
  exact .of_writes (.reg 0 _ hd)

theorem finishIn_effect (hd : destination i = some 0) {b : Byte} (h : finishIn b s = .next t) :
    Effect i true 0 s t := by
  cases h
  exact ⟨_, .of_consoleWrite s b, .reg 0 _ hd⟩

theorem storeThrough_effect (hm : storesCell i = true) {sr : Reg} {ptr : Word} (h : storeThrough sr ptr s = .next t) :
    Effect i out 0 s t := by
  cases h
  exact .of_writes (.cell ptr _ hm)

/-- LDI's two reads: where its pointer is a device, the second address can be KBDR's; else it is the cell's word. -/
theorem execLdi_effect (dr : Reg) (off : BitVec 9) (h : execLdi dr off s = .next t) :
    Effect (.ldi dr off) out (consoleReads (.ldi dr off) s) s t := by
  unfold execLdi at h
  dsimp only [consoleReads]
  generalize s.pcRelative off = a at h
  split
  case isTrue =>
    exact withRead_effect (hd := .loadPointer dr) (k := loadThrough dr) nofun (fun _ => trivial)
      (fun w u _ => loadThrough_effect rfl rfl (kbdrReads_le u w)) h
  case isFalse hplain =>
    have hne := mt (s.params.mapped_iff a).mpr hplain
    rw [not_or] at hne
    rcases withRead_cases h with ⟨w, u, hr, hu⟩ | ⟨u, hr, -⟩
    · rcases hr with ⟨-, -, rfl, rfl⟩ | ⟨hkbsr, -⟩ | ⟨-, hkbdr, -⟩
      · exact loadThrough_effect rfl rfl (Nat.le_refl _) hu
      · exact absurd hkbsr hne.1
      · exact absurd hkbdr hne.2
    · exact absurd hr.2.1 hne.2

/-- Everything an instruction can do. -/
theorem exec_effect (h : exec i s = .next t) : Effect i (writesConsole i) (consoleReads i s) s t := by
  cases i with
  | br n z p off =>
    cases h
    split
    · exact .of_writes (.jump _ rfl)
    · exact .of_writes .nothing
  | addReg | addImm | andReg | andImm | notR | lea => cases h; exact .of_writes (.result _ _ rfl rfl)
  | jmp | ret => cases h; exact .of_writes (.jump _ rfl)
  | jsr | jsrr => cases h; exact .of_writes (.linkedJump _ rfl rfl)
  | st | str => cases h; exact .of_writes (.cell _ _ rfl)
  | trapHalt | reserved8 | reservedD | trapUnknown => cases h; exact .of_writes (.stop _ _)
  | trapOut => cases h; exact .of_consoleUse (.of_consoleWrite s _)
  | ld dr | ldr dr =>
    exact withRead_effect (hd := .load dr) (k := finishLoad dr) nofun (fun _ => trivial)
      (fun _ _ _ => finishLoad_effect rfl rfl) h
  | ldi dr off => exact execLdi_effect dr off h
  | sti sr =>
    exact withRead_effect (hd := .storePointer sr) (k := storeThrough sr) nofun (fun _ => trivial)
      (fun _ _ _ => storeThrough_effect rfl) h
  | trapGetc => exact withByte_effect (hd := .getc) nofun trivial (fun _ _ => finishGetc_effect rfl) h
  | trapIn =>
    have hprompt := ConsoleUse.of_consoleWriteAll (n := 0) s s.params.inPrompt
    exact .after hprompt rfl (withByte_effect (hd := .inRead) nofun trivial (fun _ _ => finishIn_effect rfl) h)
  | trapPuts => exact .of_consoleUse (putsFrom_consoleUse h)
  | trapPutsp => exact .of_consoleUse (putspFrom_consoleUse h)

/-! ### What an instruction leaves unchanged -/

/-- Settles O46: the only register writes are those of the destination. -/
theorem onlyTheDestinationRegisterChanges : Obligations.OnlyTheDestinationRegisterChanges := by
  intro i s t h r hr
  obtain ⟨u, hu, hw⟩ := exec_effect h
  have hur : u.getReg r = s.getReg r := State.getReg_congr (by rw [hu.fields]) r
  have hne : ∀ {q}, destination i = some q → r ≠ q := by
    rintro q hq rfl
    exact hr hq
  cases hw with
  | nothing | jump | stop => exact hur
  | cell a v => exact (State.getReg_congr (by rw [State.memWrite_fields]) r).trans hur
  | result dr v hd | reg dr v hd => exact (State.getReg_setReg_other u dr r v (hne hd)).trans hur
  | linkedJump target hp hd => exact (State.getReg_setReg_other u linkReg r u.pc (hne hd)).trans hur

/-- Settles O47: a result write is the one that writes `cond`. -/
theorem onlyResultWritesChangeCond : Obligations.OnlyResultWritesChangeCond := by
  intro i s t hi h
  obtain ⟨u, hu, hw⟩ := exec_effect h
  have hcond : u.cond = s.cond := by rw [hu.fields]
  cases hw with
  | result dr v hd hc => cases hi.symm.trans hc
  | cell a v => rw [State.memWrite_fields]; exact hcond
  | nothing | reg | jump | linkedJump | stop => exact hcond

/-- Settles O49: the jumps are the ones that write `pc`. -/
theorem onlyControlFlowWritesPc : Obligations.OnlyControlFlowWritesPc := by
  intro i s t hi h
  obtain ⟨u, hu, hw⟩ := exec_effect h
  have hpc : u.pc = s.pc := by rw [hu.fields]
  cases hw with
  | jump target hp | linkedJump target hp => cases hi.symm.trans hp
  | cell a v => rw [State.memWrite_fields]; exact hpc
  | nothing | result | reg | stop => exact hpc

/-- Settles O50: a cell write is the one that writes memory. -/
theorem onlyStoresChangeMemory : Obligations.OnlyStoresChangeMemory := by
  intro i s t hi h
  obtain ⟨u, hu, hw⟩ := exec_effect h
  have hmem : u.mem = s.mem := by rw [hu.fields]
  cases hw with
  | cell a v hm => cases hi.symm.trans hm
  | nothing | result | reg | jump | linkedJump | stop => exact hmem

theorem WritesAsRow.console (h : WritesAsRow i s t) : t.console = s.console := by
  cases h with
  | cell a v => rw [State.memWrite_fields]
  | nothing | result | reg | jump | linkedJump | stop => rfl

theorem WritesAsRow.hold (h : WritesAsRow i s t) : t.hold = s.hold := by
  cases h with
  | cell a v => rw [State.memWrite_fields]
  | nothing | result | reg | jump | linkedJump | stop => rfl

theorem WritesAsRow.mem_wf (h : WritesAsRow i s t) (hs : s.mem.wf) : t.mem.wf := by
  cases h with
  | cell a v => exact State.memWrite_wf hs a v
  | nothing | result | reg | jump | linkedJump | stop => exact hs

theorem Effect.output (h : Effect i out n s t) :
    ∃ bs, t.console.out = s.console.out ++ bs ∧ (out = false → bs = []) := by
  obtain ⟨u, hu, hw⟩ := h
  rw [hw.console]
  exact hu.output

theorem Effect.holdAt (h : Effect i out n s t) :
    t.hold = s.hold ∨ ∃ h, t.hold = some h ∧ h ≠ .fetch ∧ h.consistent s := by
  obtain ⟨u, hu, hw⟩ := h
  rw [hw.hold]
  exact hu.holdAt

theorem Effect.input (h : Effect i out n s t) : ∃ used, s.consumed t used ∧ used.length ≤ n := by
  obtain ⟨u, hu, hw⟩ := h
  obtain ⟨us, hus, husn⟩ := hu.input
  exact ⟨us, State.consumed_congr hus (by rw [hw.console]) (by rw [hw.console]) (by rw [hw.console]), husn⟩

theorem Effect.mem_wf (h : Effect i out n s t) (hs : s.mem.wf) : t.mem.wf := by
  obtain ⟨u, hu, hw⟩ := h
  have hmem : u.mem = s.mem := by rw [hu.fields]
  exact hw.mem_wf (hmem ▸ hs)

/-- Settles O51: the console activity of an instruction appends, and appends nothing but in four traps. -/
theorem outputIsAppendedByFourTraps : Obligations.OutputIsAppendedByFourTraps := by
  intro i s t h
  obtain ⟨bs, hbs, hnone⟩ := (exec_effect h).output
  refine ⟨⟨bs, hbs⟩, fun hi => ?_⟩
  rw [hbs, hnone hi, List.append_nil]

/-! ### Resumed instructions and steps -/

/-- `s` waiting at `hd`, the host's next bytes having arrived. -/
def State.waitingAt (s : State) (hd : Hold) : State := { s with console := s.consoleNow, hold := some hd }

/-- What a resumed instruction can do: wait on, or end as an instruction ends. -/
def Resumes (hd : Hold) (s t : State) : Prop :=
  t = s.waitingAt hd ∨ ∃ i n, Effect i true n { s with hold := none } t

theorem withByte_resumes {hd : Hold} {k : Byte → State → Answer}
    (hk : ∀ b u, k b u = .next t → Effect i true n u t) (h : withByte hd k { s with hold := none } = .next t) :
    Resumes hd s t := by
  rcases withByte_cases h with ⟨b, u, hr, hu⟩ | ⟨u, ⟨-, rfl⟩, hu⟩
  · exact .inr ⟨i, 1 + n, .after (.of_readsByte hr) (by rw [(State.readsByte_frame hr).1]) (hk b u hu)⟩
  · cases hu
    exact .inl rfl

theorem resume_resumes {hd : Hold} (hf : hd ≠ .fetch) (h : resume hd s = .next t) : Resumes hd s t := by
  cases hd with
  | fetch => exact absurd rfl hf
  | load dr =>
    exact withByte_resumes (k := fun b => finishLoad dr (zext b)) (i := .ld dr 0#9)
      (fun _ _ => finishLoad_effect rfl rfl) h
  | loadPointer dr =>
    exact withByte_resumes (k := fun b => loadThrough dr (zext b)) (i := .ldi dr 0#9)
      (fun _ u => loadThrough_effect rfl rfl (kbdrReads_le u _)) h
  | storePointer sr =>
    exact withByte_resumes (k := fun b => storeThrough sr (zext b)) (i := .sti sr 0#9)
      (fun _ _ => storeThrough_effect rfl) h
  | getc => exact withByte_resumes (i := .trapGetc) (fun _ _ => finishGetc_effect rfl) h
  | inRead => exact withByte_resumes (i := .trapIn) (fun _ _ => finishIn_effect rfl) h
  | puts a =>
    exact withByte_resumes (k := fun b => putsCell putsFrom a (zext b)) (i := .trapPuts)
      (fun _ _ hu => .of_consoleUse (putsCell_consoleUse hu)) h
  | putsp a =>
    exact withByte_resumes (k := fun b => putspCell putspFrom a (zext b)) (i := .trapPutsp)
      (fun _ _ hu => .of_consoleUse (putspCell_consoleUse hu)) h
  | putsRound a => exact .inr ⟨.trapPuts, 1, .of_consoleUse (putsFrom_consoleUse h)⟩
  | putspRound a => exact .inr ⟨.trapPutsp, 1, .of_consoleUse (putspFrom_consoleUse h)⟩

/-- The fetch reads, or has been reading, in `s`. -/
def State.fetching (s : State) : Prop := s.hold = none ∨ s.hold = some .fetch

/-- Everything a step can do: wait at a hold, which is the one it found or that of a fetch at KBDR; or have the word it
fetched, and run it; or go on inside the instruction in IR. -/
inductive StepEffect (s : State) : State → Prop where
  | waits {hd : Hold} (h : s.hold = some hd ∨ (s.hold = none ∧ hd = .fetch ∧ s.pc = s.params.kbdrAddr)) :
      StepEffect s (s.waitingAt hd)
  | runs {w : Word} {u t : State} (hs : s.fetching) (hu : ConsoleUse false 1 { s with hold := none } u)
      (hh : u.hold = none) (ht : exec (decode w) (u.fetched w) = .next t) : StepEffect s t
  | goesOn {hd : Hold} {i : Instr} {n : Nat} {t : State} (hs : s.hold = some hd) (hf : hd ≠ .fetch)
      (hrun : s.sameRun t) (ht : Effect i true n { s with hold := none } t) : StepEffect s t

theorem step_effect (h : step s = .next t) : StepEffect s t := by
  obtain ⟨-, ⟨hs, hx⟩ | ⟨hd, hs, hx⟩⟩ := step_cases h
  · rcases withRead_cases hx with ⟨w, u, hr, hu⟩ | ⟨u, ⟨-, ha, -, rfl⟩, hu⟩
    · have hfree : { s with hold := none } = s := by rw [← hs]
      refine .runs (.inl hs) ?_ ?_ hu
      · rw [hfree]
        exact (ConsoleUse.of_reads hr).mono (kbdrReads_le s _)
      · rw [(State.reads_frame hr).1, hs]
    · cases hu
      exact .waits (.inr ⟨hs, rfl, ha⟩)
  · by_cases hf : hd = .fetch
    · subst hf
      rcases withByte_cases hx with ⟨b, u, hr, hu⟩ | ⟨u, ⟨-, rfl⟩, hu⟩
      · exact .runs (.inr hs) (.of_readsByte hr) (by rw [(State.readsByte_frame hr).1]) hu
      · cases hu
        exact .waits (.inl hs)
    · rcases resume_resumes hf hx with rfl | ⟨i, n, ht⟩
      · exact .waits (.inl hs)
      · exact .goesOn hs hf (resume_sameRun hf hx) ht

/-- Settles O54: the console reads of an instruction, and of a step its fetch's read and then the instruction's. -/
theorem inputIsConsumedInOrder : Obligations.InputIsConsumedInOrder := by
  refine ⟨fun s t h => ?_, fun i s t h => (exec_effect h).input⟩
  cases step_effect h with
  | waits => exact ⟨[], 1, by simp [State.waitingAt, State.consoleNow, Console.afterCalls], rfl, rfl⟩
  | @runs w u t hs hu hh ht =>
    obtain ⟨us, hus, -⟩ := hu.input
    obtain ⟨vs, hvs, -⟩ := (exec_effect ht).input
    exact ⟨us ++ vs, State.consumed_trans (t := u) hus hvs⟩
  | goesOn hs hf hrun ht =>
    obtain ⟨us, hus, -⟩ := ht.input
    exact ⟨us, hus⟩

theorem State.sameRun.params (h : s.sameRun t) : t.params = s.params := by rw [h]

theorem State.sameRun.icount (h : s.sameRun t) : t.icount = s.icount := by rw [h]

theorem State.sameRun.fault (h : s.sameRun t) : t.fault = s.fault := by rw [h]

theorem exec_params_icount (h : exec i s = .next t) : t.params = s.params ∧ t.icount = s.icount := by
  rcases exec_cases h with hs | ⟨-, rfl⟩ | ⟨-, _, _, _, rfl⟩
  · exact ⟨hs.params, hs.icount⟩
  · exact ⟨rfl, rfl⟩
  · exact ⟨rfl, rfl⟩

/-- Settles O53: neither the console, nor a fetch, nor an instruction changes a parameter. -/
theorem parametersNeverChange : Obligations.ParametersNeverChange := by
  intro s t h
  cases step_effect h with
  | waits => rfl
  | runs hs hu hh ht => exact (exec_params_icount ht).1.trans hu.params
  | goesOn hs hf hrun ht => exact hrun.params

/-- An instruction, or what is left of it, does not end in a hold of the fetch. -/
theorem Effect.hold_ne_fetch (h : Effect i out n s t) (hs : s.hold = none) : t.hold ≠ some .fetch := by
  rcases h.holdAt with ht | ⟨hd, ht, hf, -⟩
  · rw [ht, hs]
    nofun
  · rw [ht]
    exact fun he => hf (Option.some.inj he)

/-- Settles O55: a fetch that has its word counts it, and nothing else counts. -/
theorem countGrowsOncePerFetch : Obligations.CountGrowsOncePerFetch := by
  intro s t h
  cases step_effect h with
  | @waits hd hw =>
    rw [if_neg]
    · rfl
    · rintro ⟨hs, hne⟩
      rcases hw with hw | ⟨-, rfl, -⟩
      · rcases hs with hs | hs
        · cases hs.symm.trans hw
        · exact hne (hw.symm.trans hs)
      · exact hne rfl
  | runs hs hu hh ht =>
    rw [if_pos ⟨hs, (exec_effect ht).hold_ne_fetch hh⟩, (exec_params_icount ht).2, State.fetched_icount, hu.fields]
  | goesOn hs hf hrun ht =>
    rw [if_neg]
    · exact hrun.icount
    · rintro ⟨hs' | hs', -⟩
      · cases hs'.symm.trans hs
      · exact hf (Option.some.inj (hs.symm.trans hs'))

end Sys2Proof.Machine
end

section
/-!
The invariant: what a running state needs to have it, that the record of a faulting row describes the word in IR, and that
every step keeps it.
-/
namespace Sys2Proof.Machine

/-- The opcode of the row that a word decodes to is the word's. -/
theorem opcode_decode (w : Word) : w.extractLsb' 12 4 = (decode w).opcode :=
  ((agreesOnUsedBits_decode w).field 12 4 (bitsAt_usedBits_opcode _)).trans (bitsAt_encode_opcode _)

/-- The vector of an unknown trap is the word's. -/
theorem vector_of_decode_trapUnknown {w : Word} {v : Byte} (h : decode w = .trapUnknown v) : w.extractLsb' 0 8 = v := by
  have hagrees := agreesOnUsedBits_decode w
  rw [h] at hagrees
  exact (hagrees.field 0 8).trans (bitsAt_encode_trapUnknown v)

theorem not_mem_of_decode_trapUnknown {w : Word} {v : Byte} (h : decode w = .trapUnknown v) : v ∉ knownVectors := by
  have hwf := decode_wellFormed w
  rw [h] at hwf
  exact (wellFormed_trapUnknown_iff v).mp hwf

variable {s t : State}

/-- A faulting row enters FAULTED with a record that describes the word in IR (R140, R141). -/
theorem exec_faulting (hi : raisesFault (decode s.ir) = true) :
    ∃ r : FaultRecord, exec (decode s.ir) s = .next { s with status := .faulted, fault := some r } ∧
      r.consistent ∧ r.word = s.ir ∧ r.pc = s.pc := by
  have hop := opcode_decode s.ir
  cases hd : decode s.ir with
  | reserved8 =>
    rw [hd] at hop
    exact ⟨_, rfl, ⟨rfl, .inl hop, rfl⟩, rfl, rfl⟩
  | reservedD =>
    rw [hd] at hop
    exact ⟨_, rfl, ⟨rfl, .inr hop, rfl⟩, rfl, rfl⟩
  | trapUnknown v =>
    rw [hd] at hop
    have hv := vector_of_decode_trapUnknown hd
    have hunknown : s.ir.extractLsb' 0 8 ∉ knownVectors := by
      rw [hv]
      exact not_mem_of_decode_trapUnknown hd
    exact ⟨_, rfl, ⟨hop.symm, rfl, congrArg some hv.symm, hunknown⟩, rfl, rfl⟩
  | _ =>
    rw [hd] at hi
    cases hi

theorem State.Inv.fault_eq_none (hs : s.Inv) (hrun : s.status ≠ .faulted) : s.fault = none :=
  not_not.mp (mt hs.faultIffFaulted.mp hrun)

/-- Outside FAULTED the invariant says nothing of the record but that there is none. -/
theorem State.Inv.of_no_fault (hm : t.mem.wf) (hd : t.params.kbsrAddr ≠ t.params.kbdrAddr) (hf : t.fault = none)
    (hstatus : t.status ≠ .faulted) (hrun : t.hold ≠ none → t.status = .running)
    (hplace : ∀ h, t.hold = some h → h.consistent t) : t.Inv where
  memory := hm
  mappedDiffer := hd
  faultIffFaulted := ⟨fun h => absurd hf h, fun h => absurd h hstatus⟩
  faultRecord := fun r hr => by cases hf.symm.trans hr
  holdRunning := hrun
  holdPlace := hplace

/-- What an instruction, or what is left of one, does in a running state keeps the invariant. -/
theorem Effect.keeps_inv {i : Instr} {out : Bool} {n : Nat} (hs : s.Inv) (hrun : s.status = .running)
    (hfree : s.hold = none) (he : Effect i out n s t) (ht : s.sameRun t) : t.Inv := by
  have hstatus : t.status = .running := ht.status.trans hrun
  refine .of_no_fault (he.mem_wf hs.memory) ?_ ?_ ?_ (fun _ => hstatus) (fun h hh => ?_)
  · rw [ht.params]
    exact hs.mappedDiffer
  · exact ht.fault.trans (hs.fault_eq_none (by rw [hrun]; nofun))
  · rw [hstatus]
    nofun
  · rcases he.holdAt with h0 | ⟨hd, hd', hf, hc⟩
    · cases (hfree.symm.trans h0.symm).trans hh
    · cases hd'.symm.trans hh
      exact Hold.consistent_congr hf ht.params hc

/-- Running the word in IR keeps the invariant. -/
theorem exec_decode_keeps_inv (hs : s.Inv) (hrun : s.status = .running) (hfree : s.hold = none)
    (h : exec (decode s.ir) s = .next t) : t.Inv := by
  by_cases hfault : raisesFault (decode s.ir) = true
  · obtain ⟨r, hr, hconsistent, hword, hpc⟩ := exec_faulting hfault
    cases h.symm.trans hr
    exact {
      memory := hs.memory
      mappedDiffer := hs.mappedDiffer
      faultIffFaulted := ⟨fun _ => rfl, fun _ => nofun⟩
      faultRecord := by rintro _ ⟨⟩; exact ⟨hconsistent, hword, hpc⟩
      holdRunning := fun hne => absurd hfree hne
      holdPlace := fun _ hh => by cases hfree.symm.trans hh }
  · rcases exec_cases h with hsame | ⟨-, rfl⟩ | ⟨hi, -⟩
    · exact (exec_effect h).keeps_inv hs hrun hfree hsame
    · exact .of_no_fault hs.memory hs.mappedDiffer (hs.fault_eq_none (by rw [hrun]; nofun)) nofun
        (fun hne => absurd hfree hne) (fun _ hh => by cases hfree.symm.trans hh)
    · exact absurd hi hfault

/-- The invariant does not depend on the console, on IR, `pc` and the count of a running state, or on its hold but for the
hold's place. -/
theorem State.Inv.of_running (hs : s.Inv) (hrun : s.status = .running) {pc ir : Word} {icount : Nat} {console : Console}
    {hold : Option Hold}
    (hplace : ∀ h, hold = some h →
      h.consistent { s with pc := pc, ir := ir, icount := icount, console := console, hold := hold }) :
    State.Inv { s with pc := pc, ir := ir, icount := icount, console := console, hold := hold } :=
  .of_no_fault hs.memory hs.mappedDiffer (hs.fault_eq_none (by rw [hrun]; nofun)) (by rw [hrun]; nofun) (fun _ => hrun)
    hplace

/-- Settles O12: a wait is at KBDR or where it was, a fetched word runs in a state with the invariant, and what is left of an
instruction keeps it. -/
theorem stepKeepsTheInvariant : Obligations.StepKeepsTheInvariant := by
  intro s t hs h
  have hrun : s.status = .running := (step_cases h).1
  cases step_effect h with
  | @waits hd hw =>
    refine hs.of_running hrun ?_
    rintro _ ⟨⟩
    rcases hw with hw | ⟨-, rfl, hpc⟩
    · exact hs.holdPlace hd hw
    · exact hpc
  | @runs w u t _ hu hh ht =>
    have hu' : (u.fetched w).Inv := by
      rw [hu.fields]
      exact hs.of_running hrun (fun h hh' => by cases hh.symm.trans hh')
    refine exec_decode_keeps_inv hu' ?_ hh ht
    rw [hu.fields]
    exact hrun
  | goesOn hw hf hsame ht =>
    have hfree : State.Inv { s with hold := none } := hs.of_running hrun (fun h hh => by cases hh)
    exact ht.keeps_inv hfree hrun rfl hsame

/-- Settles O13: nothing is held and there is no record. -/
theorem resetMeetsTheInvariant : Obligations.ResetMeetsTheInvariant :=
  .of_no_fault State.reset_mem_wf (by decide) rfl nofun (fun hne => absurd rfl hne) (fun _ hh => by cases hh)

theorem State.getReg_reset (r : Reg) : State.reset.getReg r = 0x0000#16 := by
  simp [State.getReg, State.reset, Config.resetGpr]

/-- Settles O14: eight registers, an empty memory, and the fields as `State.reset` gives them. -/
theorem resetLeavesTheListedValues : Obligations.ResetLeavesTheListedValues :=
  ⟨State.getReg_reset, rfl, rfl, rfl, rfl, rfl, fun _ => rfl, rfl⟩

end Sys2Proof.Machine
end

section
/-!
The fetch (R47, R81), and coherence of stores and of the host's placed word with it (R56; log 17).
-/
namespace Sys2Proof.Machine

variable {s s' : State}

theorem State.reads_cell {a : Word} (hkbsr : a ≠ s.params.kbsrAddr) (hkbdr : a ≠ s.params.kbdrAddr) :
    s.reads a (s.mem.read a.addr) s :=
  .inl ⟨hkbsr, hkbdr, rfl, rfl⟩

theorem State.mapped_eq_false {a : Word} (hkbsr : a ≠ s.params.kbsrAddr) (hkbdr : a ≠ s.params.kbdrAddr) :
    s.params.mapped a = false :=
  Bool.eq_false_iff.mpr (mt (s.params.mapped_iff a).mp (not_or.mpr ⟨hkbsr, hkbdr⟩))

theorem step_of_reads {w : Word} (hrun : s.status = .running) (hfree : s.hold = none) (hr : s.reads s.pc w s') :
    step s = exec (decode w) { s' with ir := w, pc := s.pc + 1, icount := s.icount + 1 } := by
  have hs' : s'.pc = s.pc ∧ s'.icount = s.icount := by rw [(State.reads_frame hr).1]; exact ⟨rfl, rfl⟩
  rw [step_of_none hrun hfree, fetchAndRun, withRead_of_reads hr, runFetched, State.fetched, hs'.1, hs'.2]

/-- Settles O8: the fetch is a read of MemRead at `pc`. -/
theorem fetchReadsThroughTheMappedRegisters : Obligations.FetchReadsThroughTheMappedRegisters := by
  intro s hrun hfree
  refine ⟨fun w s' hr => step_of_reads hrun hfree hr, fun s' hh => ?_⟩
  rw [step_of_none hrun hfree, fetchAndRun, withRead_of_readHolds hh]

/-- Settles O7: a plain cell is one of the places a fetch reads. -/
theorem stepRunsTheFetchedInstruction : Obligations.StepRunsTheFetchedInstruction :=
  fun _ hrun hfree hkbsr hkbdr => step_of_reads hrun hfree (State.reads_cell hkbsr hkbdr)

theorem pcRelative_zero (s : State) : s.pcRelative 0#9 = s.pc := by
  have h0 : sext 0#9 = 0#16 := by decide
  rw [State.pcRelative, h0, BitVec.add_zero]

/-- Settles O26: ST writes the cell at `pc`, and the next fetch reads it there. -/
theorem storedWordIsTheNextInstruction : Obligations.StoredWordIsTheNextInstruction := by
  intro sr s t hm hrun hfree hkbsr hkbdr h
  have ht : t = { s with mem := s.mem.write s.pc.addr (s.getReg sr) } := by
    rw [← State.memWrite_plain s s.pc _ (State.mapped_eq_false hkbsr hkbdr), ← pcRelative_zero s]
    exact (Host.Outcome.next.inj h).symm
  subst ht
  have hword : (s.mem.write s.pc.addr (s.getReg sr)).read s.pc.addr = s.getReg sr := by
    rw [Memory.read_write_addr hm, if_pos rfl]
  have hread := State.reads_cell (s := { s with mem := s.mem.write s.pc.addr (s.getReg sr) }) hkbsr hkbdr
  rw [hword] at hread
  exact step_of_reads hrun hfree hread

theorem withFetchWord_of_plain (w : Word) (hkbsr : s.pc ≠ s.params.kbsrAddr) (hkbdr : s.pc ≠ s.params.kbdrAddr) :
    s.withFetchWord 16 w.toNat = { s with mem := s.mem.write s.pc.addr w, status := .running, hold := none } := by
  have hhome : s.fetchHome = s.pc := if_neg (Bool.eq_false_iff.mp (State.mapped_eq_false hkbsr hkbdr))
  rw [State.withFetchWord, State.placeFetchWord, hhome, Nat.mod_eq_of_lt w.isLt, BitVec.ofNat_toNat,
    BitVec.setWidth_eq]

/-- Settles O59: the word is stored at `pc`, which is a plain cell, and the next fetch reads it there. -/
theorem placedWordIsTheNextInstruction : Obligations.PlacedWordIsTheNextInstruction := by
  intro s w hm hkbsr hkbdr
  refine ⟨s.memWrite s.pc w, memWriteSetsOnePlainCell s s.pc w hm, ?_⟩
  rw [withFetchWord_of_plain w hkbsr hkbdr, State.memWrite_plain s s.pc w (State.mapped_eq_false hkbsr hkbdr)]
  have hword : (s.mem.write s.pc.addr w).read s.pc.addr = w := by
    rw [Memory.read_write_addr hm, if_pos rfl]
  have hread := State.reads_cell
    (s := { s with mem := s.mem.write s.pc.addr w, status := .running, hold := none }) hkbsr hkbdr
  rw [hword] at hread
  exact step_of_reads rfl rfl hread

end Sys2Proof.Machine
end

section
/-!
AND and NOT (R93 to R95): a result write of the word computed.
-/
namespace Sys2Proof.Machine

theorem ofInt_toInt_eq_sext {n : Nat} (v : BitVec n) (hn : n ≤ 16) : BitVec.ofInt 16 v.toInt = sext v := by
  rw [← sext_toInt v hn, BitVec.ofInt_toInt]

theorem ofInt_neg_sub_one (v : Word) : BitVec.ofInt 16 (-v.toInt - 1) = ~~~v := by
  have h1 : BitVec.ofInt 16 (-1) = -1#16 := by decide
  rw [Int.sub_eq_add_neg, BitVec.ofInt_add, BitVec.ofInt_neg, BitVec.ofInt_toInt, h1, BitVec.not_eq_neg_add,
    BitVec.sub_eq_add_neg]

/-- Settles O17: a result write of the conjunction; the immediate keeps its signed value. -/
theorem andWritesTheBitwiseAnd : Obligations.AndWritesTheBitwiseAnd := by
  refine ⟨fun dr sr1 sr2 s => ⟨_, rfl, writeResult_wroteResult s dr _⟩, fun dr sr1 imm s => ⟨_, rfl, ?_⟩⟩
  rw [ofInt_toInt_eq_sext imm (by decide)]
  exact writeResult_wroteResult s dr _

/-- Settles O18: the complement as a signed number. -/
theorem notWritesTheComplement : Obligations.NotWritesTheComplement := by
  refine fun dr sr s => ⟨_, rfl, ?_⟩
  rw [ofInt_neg_sub_one]
  exact writeResult_wroteResult s dr _

end Sys2Proof.Machine
end

section
/-!
Data movement (R100 to R107): the two effective addresses as sums of signed numbers, and each instruction as MemRead or
MemWrite at its address.
-/
namespace Sys2Proof.Machine

theorem pcRelative_eq {n : Nat} (s : State) (off : BitVec n) (hn : n ≤ 16) :
    s.pcRelative off = BitVec.ofInt 16 (s.pc.toInt + off.toInt) :=
  (ofInt_toInt_add_toInt s.pc off hn).symm

theorem basePlus_eq (s : State) (base : Reg) (off : BitVec 6) :
    s.basePlus base off = BitVec.ofInt 16 ((s.getReg base).toInt + off.toInt) :=
  (ofInt_toInt_add_toInt _ off (by decide)).symm

/-- The end of a load from `a`: the word read becomes the result, or the read holds. -/
theorem load_at {s : State} {a : Word} {dr : Reg} :
    (∀ w s', s.reads a w s' → ∃ t, withRead a (.load dr) (finishLoad dr) s = .next t ∧ s'.wroteResult t dr w) ∧
    (∀ s', s.readHolds a s' →
      withRead a (.load dr) (finishLoad dr) s = .next { s' with hold := some (.load dr) }) := by
  refine ⟨fun w s' hr => ?_, fun s' hh => withRead_of_readHolds hh _ _⟩
  rw [withRead_of_reads hr]
  exact ⟨_, rfl, writeResult_wroteResult s' dr w⟩

/-- Settles O19: a load from the PC-relative address. -/
theorem ldLoadsFromPcPlusOffset : Obligations.LdLoadsFromPcPlusOffset := by
  rintro dr off s a rfl
  rw [← pcRelative_eq s off (by decide)]
  exact load_at

/-- Settles O21: a load from the base-plus-offset address. -/
theorem ldrLoadsFromBasePlusOffset : Obligations.LdrLoadsFromBasePlusOffset := by
  rintro dr base off s a rfl
  rw [← basePlus_eq]
  exact load_at

theorem execLdi_of_reads {dr : Reg} {off : BitVec 9} {s s1 : State} {ptr : Word}
    (h : s.reads (s.pcRelative off) ptr s1) :
    exec (.ldi dr off) s = withRead ptr (.load dr) (finishLoad dr) s1 :=
  withRead_of_reads h _ _

/-- Settles O20: after its pointer read, LDI is a load from where the pointer points. -/
theorem ldiLoadsThroughAPointer : Obligations.LdiLoadsThroughAPointer := by
  rintro dr off s a rfl
  rw [← pcRelative_eq s off (by decide)]
  refine ⟨fun ptr s1 w s2 h1 h2 => ?_, fun ptr s1 s2 h1 h2 => ?_, fun s1 h1 => withRead_of_readHolds h1 _ _⟩
  · rw [execLdi_of_reads h1]
    exact load_at.1 w s2 h2
  · rw [execLdi_of_reads h1]
    exact load_at.2 s2 h2

/-- Settles O22: a result write of the PC-relative address. -/
theorem leaWritesTheAddress : Obligations.LeaWritesTheAddress := by
  refine fun dr off s => ⟨_, rfl, ?_⟩
  rw [← pcRelative_eq s off (by decide)]
  exact writeResult_wroteResult s dr _

/-- Settles O23: a MemWrite at each of the two addresses. -/
theorem stAndStrStoreAtTheirAddress : Obligations.StAndStrStoreAtTheirAddress := by
  refine ⟨fun sr off s hm => ⟨_, rfl, ?_⟩, fun sr base off s hm => ⟨_, rfl, ?_⟩⟩
  · rw [← pcRelative_eq s off (by decide)]
    exact memWriteSetsOnePlainCell s _ _ hm
  · rw [← basePlus_eq]
    exact memWriteSetsOnePlainCell s _ _ hm

/-- Settles O24: the pointer read changes neither the register stored nor memory. -/
theorem stiStoresThroughAPointer : Obligations.StiStoresThroughAPointer := by
  rintro sr off s a hm rfl
  rw [← pcRelative_eq s off (by decide)]
  refine ⟨fun ptr s' hr => ⟨_, withRead_of_reads hr _ _, ?_⟩, fun s' hh => withRead_of_readHolds hh _ _⟩
  have hframe := (State.reads_frame hr).1
  have hreg : s'.getReg sr = s.getReg sr := State.getReg_congr (by rw [hframe]) sr
  have hm' : s'.mem.wf := by rw [hframe]; exact hm
  rw [hreg]
  exact memWriteSetsOnePlainCell s' ptr _ hm'

end Sys2Proof.Machine
end

section
/-!
Control flow (R115 to R119).
-/
namespace Sys2Proof.Machine

/-- BR branches exactly when the mask bit of the flag that is set is 1 (R115, D3). -/
theorem branchTaken_iff (n z p : Bool) (c : Cond) : branchTaken n z p c = true ↔
    (n = true ∧ c = .neg) ∨ (z = true ∧ c = .zero) ∨ (p = true ∧ c = .pos) := by
  cases c <;> revert n z p <;> decide

theorem branchTaken_eq_false_iff (n z p : Bool) (c : Cond) : branchTaken n z p c = false ↔
    (n = false ∧ c = .neg) ∨ (z = false ∧ c = .zero) ∨ (p = false ∧ c = .pos) := by
  cases c <;> revert n z p <;> decide

theorem exec_br_taken {n z p : Bool} {off : BitVec 9} {s : State} (h : branchTaken n z p s.cond = true) :
    exec (.br n z p off) s = .next (s.jumpTo (s.pcRelative off)) :=
  congrArg Host.Outcome.next (if_pos h)

theorem exec_br_not_taken {n z p : Bool} {off : BitVec 9} {s : State} (h : branchTaken n z p s.cond = false) :
    exec (.br n z p off) s = .next s :=
  congrArg Host.Outcome.next (if_neg (Bool.eq_false_iff.mp h))

/-- Settles O27: the mask decides between the two branches. -/
theorem branchFollowsTheMask : Obligations.BranchFollowsTheMask := by
  intro n z p off s
  rw [← pcRelative_eq s off (by decide), ← branchTaken_iff, ← branchTaken_eq_false_iff]
  exact ⟨exec_br_taken, exec_br_not_taken⟩

/-- Settles O28: one field written in each. -/
theorem jumpsGoToTheRegister : Obligations.JumpsGoToTheRegister := fun _ => ⟨fun _ => rfl, rfl⟩

/-- Settles O29: the link write, then the jump. -/
theorem jsrLinksAndJumps : Obligations.JsrLinksAndJumps := by
  refine fun off s => ⟨_, rfl, fun r => State.getReg_link s r, ?_⟩
  rw [← pcRelative_eq s off (by decide)]
  rfl

theorem State.getReg_link_of_ne {s : State} {r : Reg} (h : r ≠ 7) : s.link.getReg r = s.getReg r :=
  (State.getReg_link s r).trans (if_neg h)

/-- Settles O30: whether BaseR is read before or after the link write matters for BaseR = 7 only. -/
theorem jsrrLinksAndJumpsThroughTheRegister : Obligations.JsrrLinksAndJumpsThroughTheRegister := by
  refine fun base s => ⟨_, rfl, fun r => State.getReg_link s r, rfl, fun hne => ?_, ?_, ?_⟩
  · dsimp only [State.jumpTo]
    split
    · exact State.getReg_link_of_ne hne
    · rfl
  · rintro rfl hfirst
    dsimp only [State.jumpTo]
    rw [if_pos hfirst]
    exact State.getReg_link s 7
  · rintro rfl hlast
    dsimp only [State.jumpTo]
    rw [if_neg (Bool.eq_false_iff.mp hlast)]

end Sys2Proof.Machine
end

section
/-!
Faults (R83, R133, R141) and the traps (R125 to R132) from the word to the effect.
-/
namespace Sys2Proof.Machine

/-- Settles O33: the record and the status, and then no step. -/
theorem faultEntryWritesOnlyTheRecordAndStatus : Obligations.FaultEntryWritesOnlyTheRecordAndStatus :=
  fun s k o v => ⟨rfl, noStepOnceHaltedOrFaulted (s.raiseFault k o v) (.inr rfl)⟩

theorem exec_reserved {i : Instr} (hi : i = .reserved8 ∨ i = .reservedD) (s : State) :
    exec i s = .next (s.raiseFault .reservedOpcode (s.ir.extractLsb' 12 4) none) := by
  rcases hi with rfl | rfl <;> rfl

/-- Settles O31: the record's opcode is the one in IR. -/
theorem reservedOpcodesFault : Obligations.ReservedOpcodesFault := by
  rintro w s rfl
  refine ⟨fun hop => ⟨decode_of_opcode hop, ?_⟩, fun hop => ⟨decode_of_opcode hop, ?_⟩⟩
  · rw [exec_reserved (.inl rfl), hop, State.raiseFault]
  · rw [exec_reserved (.inr rfl), hop, State.raiseFault]

theorem decode_trap {w : Word} {v : Byte} (hop : w.extractLsb' 12 4 = 0xF#4) (hv : v = w.extractLsb' 0 8) :
    decode w = decodeTrap v :=
  hv ▸ decode_of_opcode hop

/-- A trap outside the known vectors decodes to the unknown trap, which faults with the vector in the record. -/
theorem unknown_trap_faults {w : Word} {v : Byte} (hop : w.extractLsb' 12 4 = 0xF#4) (hv : v = w.extractLsb' 0 8)
    (hunknown : v ∉ knownVectors) : decode w = .trapUnknown v ∧
      ∀ s : State, s.ir = w → exec (.trapUnknown v) s = .next { s with
        status := .faulted,
        fault := some { kind := .unknownTrapVector, word := w, opcode := 0xF#4, vector := some v, pc := s.pc } } := by
  refine ⟨(decode_trap hop hv).trans (decodeTrap_unknown hunknown), ?_⟩
  rintro s rfl
  rfl

theorem not_mem_knownVectors {v : Byte} (h : v.toNat < 0x20 ∨ 0x25 < v.toNat) : v ∉ knownVectors := by
  intro hv
  rcases (mem_knownVectors_iff v).mp hv with rfl | rfl | rfl | rfl | rfl | rfl <;> revert h <;> decide

/-- Settles O32: no known vector lies in either range. -/
theorem unknownTrapVectorsFault : Obligations.UnknownTrapVectorsFault := by
  intro w v s hop hv hrange hir
  obtain ⟨hdecode, hexec⟩ := unknown_trap_faults hop hv (not_mem_knownVectors hrange)
  exact ⟨hdecode, hexec s hir⟩

/-- Settles O34: the six known vectors, and any other. -/
theorem trapDispatchesOnTheVector : Obligations.TrapDispatchesOnTheVector := by
  intro w v hop hv
  rw [decode_trap hop hv]
  refine ⟨?_, ?_, ?_, ?_, ?_, ?_, fun hunknown => ?_⟩
  case refine_7 =>
    rw [← decode_trap hop hv]
    exact unknown_trap_faults hop hv hunknown
  all_goals
    rintro rfl
    rfl

theorem zext_byte (b : Byte) : zext b = BitVec.ofNat 16 b.toNat := by
  rw [← zext_toNat (by decide : 8 ≤ 16) b, BitVec.ofNat_toNat, BitVec.setWidth_eq]

theorem setReg_wroteReg (s : State) (r : Reg) (v : Word) : s.wroteReg (s.setReg r v) r v :=
  ⟨fun q => State.getReg_setReg s r q v, rfl⟩

/-- Settles O36: the decoded row's console read, and R0 with its byte. -/
theorem getcReadsOneCharacter : Obligations.GetcReadsOneCharacter := by
  intro w s hop hv
  refine ⟨(decode_trap hop rfl).trans (by rw [hv]; rfl), fun b s' hr => ?_, fun s' hh => withByte_of_byteHolds hh _ _⟩
  rw [← zext_byte]
  exact ⟨_, withByte_of_readsByte hr _ _, setReg_wroteReg s' 0 _⟩

/-- Settles O37: bits 7:0 as a number modulo 256. -/
theorem outWritesOneCharacter : Obligations.OutWritesOneCharacter := by
  refine fun s => ⟨_, rfl, ?_⟩
  have hbyte : BitVec.ofNat 8 ((s.getReg 0).toNat % 256) = lowByte (s.getReg 0) := by
    rw [lowByte_eq]
    exact BitVec.eq_of_toNat_eq (by simp)
  rw [hbyte]
  rfl

/-- Settles O38: with the prompt written, the read, then the echo and the register write. -/
theorem inPromptsReadsAndEchoes : Obligations.InPromptsReadsAndEchoes := by
  rintro s s1 rfl
  refine ⟨fun b s2 hr => ?_, fun s2 hh => withByte_of_byteHolds hh _ _⟩
  rw [← zext_byte]
  exact ⟨_, _, withByte_of_readsByte hr _ _, rfl, setReg_wroteReg _ 0 _⟩

/-- Settles O39: the status, and then no step. -/
theorem haltEndsTheRun : Obligations.HaltEndsTheRun :=
  fun s => ⟨_, rfl, rfl, noStepOnceHaltedOrFaulted s.halt (.inl rfl)⟩

end Sys2Proof.Machine
end

section
/-!
The hold on console input (R85): a held step tries its read again, and goes on with the byte or holds as before.
-/
namespace Sys2Proof.Machine

/-- Settles O44: no place that waits does anything before its read. -/
theorem heldStepWaitsForInput : Obligations.HeldStepWaitsForInput := by
  rintro s _ h hrun hhold ⟨hp, rfl⟩ hwaits
  have hblocks : ({ s with hold := none } : State).byteHolds { s with hold := none, console := s.consoleNow } :=
    ⟨hp, rfl⟩
  rw [step_of_hold hrun hhold]
  cases h with
  | putsRound a => exact absurd rfl (hwaits a).1
  | putspRound a => exact absurd rfl (hwaits a).2
  | fetch | load | loadPointer | storePointer | getc | inRead | puts | putsp =>
    unfold resume
    dsimp only
    rw [withByte_of_byteHolds hblocks, ← hhold]

theorem lowByte_zext (b : Byte) : lowByte (zext b) = b := by
  rw [lowByte_eq, zext_toNat (by decide), BitVec.ofNat_toNat, BitVec.setWidth_eq]

theorem highByte_zext (b : Byte) : highByte (zext b) = 0x00#8 := by
  rw [highByte_eq_zero, zext_toNat (by decide)]
  exact Nat.div_eq_of_lt b.isLt

theorem putsCell_zext {next : Word → State → Answer} (a : Word) {b : Byte} (hb : b ≠ 0x00#8) (s : State) :
    putsCell next a (zext b) s = next (a + 1) (s.consoleWrite b) := by
  have hne : zext b ≠ 0x0000#16 := by
    intro h0
    exact hb ((lowByte_zext b).symm.trans (congrArg lowByte h0))
  rw [putsCell, if_neg hne, lowByte_zext]

theorem putspCell_zext {next : Word → State → Answer} (a : Word) {b : Byte} (hb : b ≠ 0x00#8) (s : State) :
    putspCell next a (zext b) s = .next (s.consoleWrite b) := by
  rw [putspCell, lowByte_zext, if_neg hb, if_pos (highByte_zext b)]

/-- Settles O45: with its byte a held step is the continuation of its place, which reads no register or memory before. -/
theorem heldStepFinishesWithItsByte : Obligations.HeldStepFinishesWithItsByte := by
  rintro s s1 h b v hrun hhold hr rfl
  rw [← zext_byte]
  have hgo : ∀ {k : Byte → State → Answer}, resume h s = withByte h k { s with hold := none } → step s = k b s1 :=
    fun hk => (step_of_hold hrun hhold).trans (hk.trans (withByte_of_readsByte hr h _))
  obtain ⟨c, rfl⟩ : ∃ c, s1 = { s with hold := none, console := c } := ⟨_, (State.readsByte_frame hr).1⟩
  refine ⟨?_, ?_, ?_, ?_, ?_, ?_, ?_, ?_, ?_, ?_, ?_⟩
  · rintro rfl
    exact hgo (k := fun b => runFetched (zext b)) rfl
  · rintro dr rfl
    exact ⟨_, hgo (k := fun b => finishLoad dr (zext b)) rfl, writeResult_wroteResult _ dr _⟩
  · rintro dr w s2 rfl h2
    have hload := hgo (k := fun b => loadThrough dr (zext b)) rfl
    exact ⟨_, hload.trans (withRead_of_reads h2 _ _), writeResult_wroteResult s2 dr w⟩
  · rintro dr s2 rfl h2
    have hload := hgo (k := fun b => loadThrough dr (zext b)) rfl
    exact hload.trans (withRead_of_readHolds h2 _ _)
  · rintro sr rfl hm
    exact ⟨_, hgo (k := fun b => storeThrough sr (zext b)) rfl, memWriteSetsOnePlainCell _ _ _ hm⟩
  · rintro rfl
    exact ⟨_, hgo (k := finishGetc) rfl, setReg_wroteReg _ 0 _⟩
  · rintro rfl
    exact ⟨_, _, hgo (k := finishIn) rfl, rfl, setReg_wroteReg _ 0 _⟩
  · rintro a rfl rfl
    exact hgo (k := fun b => putsCell putsFrom a (zext b)) rfl
  · rintro a _ rfl hb rfl
    exact (hgo (k := fun b => putsCell putsFrom a (zext b)) rfl).trans (putsCell_zext a hb _)
  · rintro a rfl rfl
    exact hgo (k := fun b => putspCell putspFrom a (zext b)) rfl
  · rintro a _ rfl hb rfl
    exact (hgo (k := fun b => putspCell putspFrom a (zext b)) rfl).trans (putspCell_zext a hb _)

end Sys2Proof.Machine
end

section
/-!
The string scans (R129, R131). Behind the cells a scan passes, with fuel left, the next read decides how it ends; a string in
plain cells is passed cell by cell.
-/
namespace Sys2Proof.Machine

variable {s t s' : State} {a : Word} {n : Nat}

theorem exists_fuel_left (h : n < 65536) : ∃ m, n + (m + 1) = scanRound :=
  ⟨scanRound - n - 1, by unfold scanRound; omega⟩

theorem putsFrom_of_passes (h : s.putsPasses n a t) {m : Nat} (hm : n + m = scanRound) :
    putsFrom a s = putsLoop m (a + BitVec.ofNat 16 n) t := by
  rw [putsFrom, ← hm, putsLoop_of_passes h]

theorem putsFrom_ends (h : s.putsPasses n a t) (hn : n < 65536) (hr : t.reads (a + BitVec.ofNat 16 n) 0x0000#16 s') :
    putsFrom a s = .next s' := by
  obtain ⟨m, hm⟩ := exists_fuel_left hn
  rw [putsFrom_of_passes h hm, putsLoop, withRead_of_reads hr, putsCell, if_pos rfl]

theorem putsFrom_holds (h : s.putsPasses n a t) (hn : n < 65536) (hh : t.readHolds (a + BitVec.ofNat 16 n) s') :
    putsFrom a s = .next { s' with hold := some (.puts (a + BitVec.ofNat 16 n)) } := by
  obtain ⟨m, hm⟩ := exists_fuel_left hn
  rw [putsFrom_of_passes h hm, putsLoop, withRead_of_readHolds hh]

theorem putsFrom_round (h : s.putsPasses n a t) (hn : n = 65536) :
    putsFrom a s = .next { t with hold := some (.putsRound a) } := by
  have hround : BitVec.ofNat 16 n = 0#16 := by rw [hn]; decide
  have hm : n + 0 = scanRound := hn
  rw [putsFrom_of_passes h hm, hround, BitVec.add_zero, putsLoop]

/-- Settles O42: the three ways a scan goes on behind the cells it has passed. -/
theorem putsFollowsItsLoop : Obligations.PutsFollowsItsLoop := by
  refine ⟨fun _ => rfl, fun s t a n h => ⟨fun s' hn => putsFrom_ends h hn, fun s' hn => putsFrom_holds h hn,
    putsFrom_round h⟩, fun s a hrun hhold => ?_⟩
  rw [step_of_hold hrun hhold, resume_putsRound]

theorem putspFrom_of_passes (h : s.putspPasses n a t) {m : Nat} (hm : n + m = scanRound) :
    putspFrom a s = putspLoop m (a + BitVec.ofNat 16 n) t := by
  rw [putspFrom, ← hm, putspLoop_of_passes h]

theorem putspFrom_of_reads (h : s.putspPasses n a t) (hn : n < 65536) {w : Word}
    (hr : t.reads (a + BitVec.ofNat 16 n) w s') :
    ∃ m, putspFrom a s = putspCell (putspLoop m) (a + BitVec.ofNat 16 n) w s' := by
  obtain ⟨m, hm⟩ := exists_fuel_left hn
  exact ⟨m, by rw [putspFrom_of_passes h hm, putspLoop, withRead_of_reads hr]⟩

theorem putspFrom_ends_low (h : s.putspPasses n a t) (hn : n < 65536) {w : Word}
    (hr : t.reads (a + BitVec.ofNat 16 n) w s') (hlow : w.toNat % 256 = 0) : putspFrom a s = .next s' := by
  obtain ⟨m, hm⟩ := putspFrom_of_reads h hn hr
  rw [hm, putspCell, if_pos ((lowByte_eq_zero w).2 hlow)]

theorem putspFrom_ends_high (h : s.putspPasses n a t) (hn : n < 65536) {w : Word}
    (hr : t.reads (a + BitVec.ofNat 16 n) w s') (hlow : w.toNat % 256 ≠ 0) (hhigh : w.toNat / 256 = 0) :
    putspFrom a s = .next (s'.consoleWrite (BitVec.ofNat 8 w.toNat)) := by
  obtain ⟨m, hm⟩ := putspFrom_of_reads h hn hr
  rw [hm, putspCell, if_neg (mt (lowByte_eq_zero w).1 hlow), if_pos ((highByte_eq_zero w).2 hhigh), lowByte_eq]

theorem putspFrom_holds (h : s.putspPasses n a t) (hn : n < 65536) (hh : t.readHolds (a + BitVec.ofNat 16 n) s') :
    putspFrom a s = .next { s' with hold := some (.putsp (a + BitVec.ofNat 16 n)) } := by
  obtain ⟨m, hm⟩ := exists_fuel_left hn
  rw [putspFrom_of_passes h hm, putspLoop, withRead_of_readHolds hh]

/-- Settles O43: the ways a scan goes on behind the cells it has passed, and that KBSR's word ends it within a round. -/
theorem putspFollowsItsLoop : Obligations.PutspFollowsItsLoop := by
  refine ⟨fun _ => rfl, fun s t a n h hn => ⟨fun w s' => putspFrom_ends_low h hn, ?_, fun s' => putspFrom_holds h hn⟩,
    fun s a => ?_⟩
  · rintro w s' _ hr hlow hhigh rfl
    exact putspFrom_ends_high h hn hr hlow hhigh
  · obtain ⟨t, ht⟩ := putspLoop_next scanRound a s
    exact ⟨t, ht, putspLoop_ends scanRound a s t (BitVec.isLt _) ht⟩

/-! ### Strings in plain cells -/

/-- A string whose cells meet `P` and whose end does not is shorter than the space. -/
theorem length_lt_of_terminated {P : Word → Prop} (h : ∀ k, k < n → P (a + BitVec.ofNat 16 k))
    (hend : ¬ P (a + BitVec.ofNat 16 n)) : n < 65536 := by
  by_contra hn
  have hwrap : BitVec.ofNat 16 (n - 65536) = BitVec.ofNat 16 n :=
    BitVec.eq_of_toNat_eq (by simp only [BitVec.toNat_ofNat]; omega)
  exact hend (hwrap ▸ h (n - 65536) (by omega))

theorem State.consoleWriteAll_nil (s : State) : s.consoleWriteAll [] = s := by
  rw [State.consoleWriteAll, List.append_nil]

theorem State.consoleWriteAll_append (s : State) (bs cs : List Byte) :
    (s.consoleWriteAll bs).consoleWriteAll cs = s.consoleWriteAll (bs ++ cs) := by
  simp only [State.consoleWriteAll, List.append_assoc]

/-- The cells from `a` on are plain and hold these words. -/
def State.holdsWords (s : State) (a : Word) (ws : List Word) : Prop :=
  ∀ k (h : k < ws.length), a + BitVec.ofNat 16 k ≠ s.params.kbsrAddr ∧ a + BitVec.ofNat 16 k ≠ s.params.kbdrAddr ∧
    s.mem.read (a + BitVec.ofNat 16 k).addr = ws[k]

theorem State.holdsWords.head {w : Word} {ws : List Word} (h : s.holdsWords a (w :: ws)) : s.reads a w s := by
  obtain ⟨hkbsr, hkbdr, hcell⟩ := h 0 (Nat.zero_lt_succ _)
  rw [BitVec.add_zero] at hkbsr hkbdr hcell
  exact .inl ⟨hkbsr, hkbdr, hcell.symm, rfl⟩

theorem State.holdsWords.tail {w : Word} {ws : List Word} (h : s.holdsWords a (w :: ws)) (bs : List Byte) :
    (s.consoleWriteAll bs).holdsWords (a + 1) ws := by
  intro k hk
  rw [Word.add_succ]
  exact h (k + 1) (Nat.succ_lt_succ hk)

/-- PUTS passes a string, writing the low byte of each word. -/
theorem putsPasses_string {ws : List Word} (h : s.holdsWords a ws) (hne : ∀ w ∈ ws, w ≠ 0x0000#16) :
    s.putsPasses ws.length a (s.consoleWriteAll (ws.map fun w => BitVec.ofNat 8 w.toNat)) := by
  induction ws generalizing s a with
  | nil => exact State.consoleWriteAll_nil s
  | cons w ws ih =>
    obtain ⟨hw, hws⟩ := List.forall_mem_cons.mp hne
    refine ⟨w, s, s.consoleWriteAll [BitVec.ofNat 8 w.toNat], h.head, hw, rfl, ?_⟩
    have hrest := ih (h.tail [BitVec.ofNat 8 w.toNat]) hws
    rwa [State.consoleWriteAll_append] at hrest

/-- PUTSP passes a string, writing the low and then the high byte of each word. -/
theorem putspPasses_string {ws : List Word} (h : s.holdsWords a ws)
    (hne : ∀ w ∈ ws, w.toNat % 256 ≠ 0 ∧ w.toNat / 256 ≠ 0) :
    s.putspPasses ws.length a (s.consoleWriteAll
      (ws.flatMap fun w => [BitVec.ofNat 8 (w.toNat % 256), BitVec.ofNat 8 (w.toNat / 256)])) := by
  induction ws generalizing s a with
  | nil => exact State.consoleWriteAll_nil s
  | cons w ws ih =>
    obtain ⟨⟨hlow, hhigh⟩, hws⟩ := List.forall_mem_cons.mp hne
    have hmod : BitVec.ofNat 8 (w.toNat % 256) = BitVec.ofNat 8 w.toNat := BitVec.eq_of_toNat_eq (by simp)
    refine ⟨w, s, _, h.head, hlow, hhigh, rfl, ?_⟩
    have hrest := ih (h.tail [BitVec.ofNat 8 w.toNat, BitVec.ofNat 8 (w.toNat / 256)]) hws
    rw [State.consoleWriteAll_append] at hrest
    rw [List.flatMap_cons, hmod]
    exact hrest

theorem forall_mem_of_getElem {P : Word → Prop} {ws : List Word} (h : ∀ k (hk : k < ws.length), P ws[k]) :
    ∀ w ∈ ws, P w := by
  intro w hw
  obtain ⟨k, hk, rfl⟩ := List.mem_iff_getElem.mp hw
  exact h k hk

/-- Settles O40: the string is passed, and its terminator is the cell behind it. -/
theorem putsWritesTheString : Obligations.PutsWritesTheString := by
  intro s ws hcells hend hplain
  have hwords : s.holdsWords (s.getReg 0) ws := fun k hk =>
    ⟨(hplain k hk.le).1, (hplain k hk.le).2, (hcells k hk).1⟩
  have hlen : ws.length < 65536 := by
    refine length_lt_of_terminated (a := s.getReg 0) (P := fun b => s.mem.read b.addr ≠ 0x0000#16) (fun k hk => ?_) ?_
    · rw [(hcells k hk).1]
      exact (hcells k hk).2
    · exact not_not.mpr hend
  have hpass := putsPasses_string hwords (forall_mem_of_getElem fun k hk => (hcells k hk).2)
  have hread : (s.consoleWriteAll (ws.map fun w => BitVec.ofNat 8 w.toNat)).reads
      (s.getReg 0 + BitVec.ofNat 16 ws.length) 0x0000#16 _ :=
    .inl ⟨(hplain _ le_rfl).1, (hplain _ le_rfl).2, hend.symm, rfl⟩
  exact ⟨_, putsFrom_ends hpass hlen hread, rfl⟩

/-- Settles O41: the string is passed, and the word behind it has the zero byte that ends the scan. -/
theorem putspWritesThePackedString : Obligations.PutspWritesThePackedString := by
  intro s ws last hcells hlast hplain full
  have hwords : s.holdsWords (s.getReg 0) ws := fun k hk =>
    ⟨(hplain k hk.le).1, (hplain k hk.le).2, (hcells k hk).1⟩
  have hlen (hzero : last.toNat % 256 = 0 ∨ last.toNat / 256 = 0) : ws.length < 65536 := by
    refine length_lt_of_terminated (a := s.getReg 0)
      (P := fun b => (s.mem.read b.addr).toNat % 256 ≠ 0 ∧ (s.mem.read b.addr).toNat / 256 ≠ 0) (fun k hk => ?_) ?_
    · rw [(hcells k hk).1]
      exact (hcells k hk).2
    · rw [hlast]
      omega
  have hpass := putspPasses_string hwords (forall_mem_of_getElem fun k hk => (hcells k hk).2)
  have hread : (s.consoleWriteAll full).reads (s.getReg 0 + BitVec.ofNat 16 ws.length) last (s.consoleWriteAll full) :=
    .inl ⟨(hplain _ le_rfl).1, (hplain _ le_rfl).2, hlast.symm, rfl⟩
  refine ⟨fun hlow => ⟨_, putspFrom_ends_low hpass (hlen (.inl hlow)) hread hlow, rfl⟩, fun hlow hhigh => ?_⟩
  refine ⟨_, putspFrom_ends_high hpass (hlen (.inr hhigh)) hread hlow hhigh, ?_⟩
  exact State.consoleWriteAll_append s full [BitVec.ofNat 8 last.toNat]

/-! ### A scan with no terminator -/

/-- While the input does not run dry, some is pending at every call, and none of it is 0. -/
theorem Console.neverRunsDry.arrive {c : Console} (h : c.neverRunsDry) :
    c.arrive.neverRunsDry ∧ c.arrive.pending ≠ [] := by
  obtain ⟨hrec, hpend, hscript⟩ := h
  have hstep : ∀ bs rest, bs ∈ c.arrivals ++ c.recurring → (∀ cs ∈ rest, cs ∈ c.arrivals ++ c.recurring) →
      ({ c with pending := c.pending ++ bs, arrivals := rest } : Console).neverRunsDry ∧ c.pending ++ bs ≠ [] := by
    intro bs rest hbs hrest
    refine ⟨⟨hrec, fun h0 => ?_, fun cs hcs => ?_⟩, fun hnil => ?_⟩
    · exact (List.mem_append.mp h0).elim hpend (hscript bs hbs).2
    · exact hscript cs ((List.mem_append.mp hcs).elim (hrest cs) (List.mem_append_right _ ·))
    · exact (hscript bs hbs).1 (List.append_eq_nil_iff.mp hnil).2
  unfold Console.arrive
  split
  case h_1 bs rest ha => exact hstep bs rest (by simp [ha]) (fun cs hcs => by simp [ha, hcs])
  case h_2 bs rest ha hr => exact hstep bs rest (by simp [hr]) (fun cs hcs => by simp [hr, hcs])
  case h_3 ha hr => exact absurd hr hrec

/-- Every cell that an unterminated scan reads gives a word that is not 0. -/
theorem reads_unterminated (hu : s.unterminated) (hc : s.console.neverRunsDry) (a : Word) :
    ∃ w c, s.reads a w { s with console := c } ∧ w ≠ 0x0000#16 ∧ c.neverRunsDry ∧ c.out = s.console.out := by
  obtain ⟨hnow, hpend⟩ := hc.arrive
  by_cases hkbsr : a = s.params.kbsrAddr
  · exact ⟨_, _, .inr (.inl ⟨hkbsr, (if_neg hpend).symm, rfl⟩), by decide, hnow, Console.arrive_out _⟩
  by_cases hkbdr : a = s.params.kbdrAddr
  · obtain ⟨b, rest, hb⟩ := List.exists_cons_of_ne_nil hpend
    obtain ⟨hrec, hzero, hscript⟩ := hnow
    rw [hb, List.mem_cons, not_or] at hzero
    refine ⟨zext b, _, .inr (.inr ⟨hkbsr, hkbdr, b, ⟨rest, hb, rfl⟩, zext_toNat (by decide) b⟩), fun h0 => ?_,
      ⟨hrec, hzero.2, hscript⟩, Console.arrive_out _⟩
    exact hzero.1 ((congrArg lowByte h0).symm.trans (lowByte_zext b))
  · exact ⟨_, s.console, .inl ⟨hkbsr, hkbdr, rfl, rfl⟩, hu a hkbsr hkbdr, hc, rfl⟩

theorem putsPasses_unterminated (hu : s.unterminated) (hc : s.console.neverRunsDry) (n : Nat) (a : Word) :
    ∃ c, s.putsPasses n a { s with console := c } ∧ c.neverRunsDry ∧ c.out.length = s.console.out.length + n := by
  induction n generalizing s a with
  | zero => exact ⟨s.console, rfl, hc, rfl⟩
  | succ n ih =>
    obtain ⟨w, c, hr, hw, hc', hout⟩ := reads_unterminated hu hc a
    obtain ⟨d, hd, hdry, hlen⟩ :=
      ih (s := ({ s with console := c } : State).consoleWrite (BitVec.ofNat 8 w.toNat)) hu hc' (a + 1)
    refine ⟨d, ⟨w, _, _, hr, hw, rfl, hd⟩, hdry, ?_⟩
    rw [hlen, State.consoleWrite_console, List.length_append, hout, List.length_singleton]
    omega

theorem putsFrom_unterminated (hu : s.unterminated) (hc : s.console.neverRunsDry) (a : Word) :
    ∃ c, putsFrom a s = .next { s with console := c, hold := some (.putsRound a) } ∧ c.neverRunsDry ∧
      c.out.length = s.console.out.length + 65536 := by
  obtain ⟨n, hn⟩ : ∃ n, n = 65536 := ⟨_, rfl⟩
  obtain ⟨c, hpass, hdry, hlen⟩ := putsPasses_unterminated hu hc n a
  exact ⟨c, putsFrom_round hpass hn, hdry, hn ▸ hlen⟩

theorem run_unterminated (hu : s.unterminated) (hc : s.console.neverRunsDry) (hrun : s.status = .running)
    (hhold : s.hold = some (.putsRound a)) (n : Nat) :
    ∃ c, Sys2Proof.core.run n s = .next { s with console := c } ∧ c.out.length = s.console.out.length + 65536 * n := by
  induction n generalizing s with
  | zero => exact ⟨s.console, rfl, rfl⟩
  | succ n ih =>
    obtain ⟨c, hfrom, hdry, (hlen : c.out.length = s.console.out.length + 65536)⟩ :=
      putsFrom_unterminated (s := { s with hold := none }) hu hc a
    have hstep : step s = .next { s with console := c } := by
      rw [step_of_hold hrun hhold, resume_putsRound, hfrom, ← hhold]
    obtain ⟨d, hd, (hlen' : d.out.length = c.out.length + 65536 * n)⟩ :=
      ih (s := { s with console := c }) hu hdry hrun hhold
    exact ⟨d, (run_succ n hstep).trans hd, by rw [hlen', hlen]; omega⟩

/-- Settles O60: each round passes 65,536 cells, and the next step is the next round. -/
theorem unterminatedPutsNeverFinishes : Obligations.UnterminatedPutsNeverFinishes := by
  intro s _ hu hc
  refine ⟨?_, fun a n hrun hhold => ?_⟩
  · obtain ⟨c, hfrom, hdry, hlen⟩ := putsFrom_unterminated hu hc (s.getReg 0)
    exact ⟨_, hfrom, rfl, hdry, hlen⟩
  · obtain ⟨c, hc', hlen⟩ := run_unterminated hu hc hrun hhold n
    exact ⟨_, hc', rfl, hlen⟩

end Sys2Proof.Machine
end

section
/-!
Launching (R35, R37, R160, R162): loading words from an address up, modulo 2^16.
-/
namespace Sys2Proof.Machine

theorem Memory.read_load_of_ne (ws : List Word) {m : Memory} (hm : m.wf) {a b : Word}
    (h : ∀ k, k < ws.length → b ≠ a + BitVec.ofNat 16 k) : (m.load a ws).read b.addr = m.read b.addr := by
  induction ws generalizing m a with
  | nil => rfl
  | cons w ws ih =>
    have ha : b ≠ a := by simpa using h 0 (Nat.zero_lt_succ _)
    rw [Memory.load, ih (Memory.write_wf hm (Word.addr_lt a) w), Memory.read_write_addr hm, if_neg ha]
    intro k hk
    rw [Word.add_succ]
    exact h (k + 1) (Nat.succ_lt_succ hk)

theorem Word.ne_add_of_lt {k : Nat} (a : Word) (h0 : 0 < k) (hk : k < 65536) : a ≠ a + BitVec.ofNat 16 k := by
  intro h
  have hnat : a.toNat = (a.toNat + k % 65536) % 65536 := by
    simpa only [BitVec.toNat_add, BitVec.toNat_ofNat] using congrArg BitVec.toNat h
  have := a.isLt
  omega

theorem Memory.read_load (ws : List Word) {m : Memory} (hm : m.wf) {a : Word} (hlen : ws.length ≤ 65536) {k : Nat}
    (hk : k < ws.length) : (m.load a ws).read (a + BitVec.ofNat 16 k).addr = ws[k] := by
  induction ws generalizing m a k with
  | nil => cases hk
  | cons w ws ih =>
    rw [List.length_cons] at hlen
    have hm' := Memory.write_wf hm (Word.addr_lt a) w
    rw [Memory.load]
    cases k with
    | zero =>
      rw [BitVec.add_zero, Memory.read_load_of_ne ws hm', Memory.read_write_addr hm, if_pos rfl]
      · rfl
      · intro k hk
        rw [Word.add_succ]
        exact Word.ne_add_of_lt a (Nat.succ_pos k) (by omega)
    | succ k =>
      rw [← Word.add_succ]
      exact ih hm' (by omega) (Nat.lt_of_succ_lt_succ hk)

/-- Settles O58: the loaded words and the cells besides, over an empty memory. -/
theorem launchLoadsTheImage : Obligations.LaunchLoadsTheImage := by
  intro p c origin words hlen
  have hm : Memory.wf [] := State.reset_mem_wf
  exact ⟨fun k hk => Memory.read_load words hm hlen hk, fun a ha => Memory.read_load_of_ne words hm ha, rfl,
    Memory.load_wf words [] origin hm⟩

end Sys2Proof.Machine
end
